-- ==== Sys2Proof/Word.lean ====
section
/-! DEFINITION. Bytes, words and the five-word records of the engine (R6, R7, R20, R22). -/

namespace Sys2Proof

/-- A byte: 8 bits (R7). -/
abbrev Byte := BitVec 8

/-- A word: 32 bits, unsigned (R6 `WORD_W`, R7). Its `+` is addition modulo 2^32 and its `&&&`, `|||`, `^^^`, `~~~`
are the bitwise operators of R8. -/
abbrev Word := BitVec 32

/-- A command word: 16 bits (R6 `CMD_W`, R71). -/
abbrev Cmd := BitVec 16

/-- A Chaining State: exactly five words `H[0]..H[4]` (R20). -/
structure Chain where
  h0 : Word
  h1 : Word
  h2 : Word
  h3 : Word
  h4 : Word
  deriving DecidableEq, Repr

/-- The five words of a Chaining State in index order. -/
def Chain.words (h : Chain) : List Word := [h.h0, h.h1, h.h2, h.h3, h.h4]

/-- `h[i]` (R10). -/
def Chain.get (h : Chain) (i : Fin 5) : Word :=
  match i with
  | 0 => h.h0
  | 1 => h.h1
  | 2 => h.h2
  | 3 => h.h3
  | 4 => h.h4

/-- The working state of one line: five words in the roles A to E, first to fifth (R22). -/
structure Working where
  a : Word
  b : Word
  c : Word
  d : Word
  e : Word
  deriving DecidableEq, Repr

/-- Word `i` of a working state, in the order A to E (R142 `wL`, `wR`). -/
def Working.get (w : Working) (i : Fin 5) : Word :=
  match i with
  | 0 => w.a
  | 1 => w.b
  | 2 => w.c
  | 3 => w.d
  | 4 => w.e

end Sys2Proof
end

