-- ==== Sys2Proof/Syntax.lean ====
section
/-! DEFINITION. The four host commands (R72), one constructor per row of spec/opcode_table.json. -/

namespace Sys2Proof

/-- A host command. The pseudo-commands UPDATE and DIGEST (R82, R83) have no encoding; they are expansions into these
four (Machine/Pseudo.lean). -/
inductive Instr where
  /-- `CTXNEW`, R160: create a fresh context. -/
  | ctxnew
  /-- `TOUCH`, R161: an update with no byte. -/
  | touch
  /-- `ABSORB b`, R162: an update with the one byte `b` (R73: all 256 values legal). -/
  | absorb (b : Byte)
  /-- `FINAL`, R164: finalize and answer the digest. -/
  | final
  deriving DecidableEq, Repr

end Sys2Proof
end

