-- ==== Sys2Proof/WellFormed.lean ====
section
/-! DEFINITION. Which command words are legal (R72, R74), and well-formedness of a command as syntax. -/

namespace Sys2Proof

/-- One row of the decoder's match and mask table (R72). -/
structure Pattern where
  mtch : Cmd
  mask : Cmd
  deriving DecidableEq, Repr

/-- The four patterns of R72, in its order: CTXNEW, TOUCH, ABSORB, FINAL. -/
def patterns : List Pattern :=
  [⟨0x0100#16, 0xFFFF#16⟩, ⟨0x0200#16, 0xFFFF#16⟩, ⟨0x0300#16, 0xFF00#16⟩, ⟨0x0400#16, 0xFFFF#16⟩]

/-- A word fits a pattern when it agrees with it on the bits of the mask. -/
def Pattern.fits (p : Pattern) (w : Cmd) : Bool := w &&& p.mask == p.mtch

/-- A legal command word fits one of the four patterns; every other word is illegal (R74). -/
def legalWord (w : Cmd) : Bool := patterns.any fun p => p.fits w

/-- Well-formedness of a command. The spec puts no condition on any operand: ABSORB's byte may have all 256 values
(R73) and the other commands have none, so every term of `Instr` is well formed; what R74 refuses are command WORDS
(`legalWord`). -/
def Instr.wellFormed : Instr → Bool
  | .ctxnew => true
  | .touch => true
  | .absorb _ => true
  | .final => true

end Sys2Proof
end

