-- ==== Sys2Proof/Decode.lean ====
section
/-! DEFINITION. The decoder (R80), total on all 65536 words and refusing by name, and after it the encoder (R72). -/

namespace Sys2Proof

/-- Why a word is illegal (R74). -/
inductive IllegalWord where
  /-- The opcode is 0x00 or in 0x05..0xFF. -/
  | reservedOpcode
  /-- The opcode is 0x01, 0x02 or 0x04 and `imm8` is not 0. -/
  | nonzeroImmediate
  deriving DecidableEq, Repr

/-- What the decoder answers: a command, or ILLEGAL_WORD with the reason. -/
inductive Decoded where
  | command (i : Instr)
  | illegal (why : IllegalWord)
  deriving DecidableEq, Repr

/-- `opcode = cmd[15:8]` (R71). -/
def opcodeOf (w : Cmd) : Byte := w.extractLsb' 8 8

/-- `imm8 = cmd[7:0]` (R71). -/
def immOf (w : Cmd) : Byte := w.extractLsb' 0 8

/-- A command that takes no operand: legal only with `imm8 = 0` (R72, R74). -/
def bareCommand (i : Instr) (imm : Byte) : Decoded :=
  if imm = 0x00#8 then .command i else .illegal .nonzeroImmediate

/-- The decoder, in R80's order of tests. It looks at the word alone. -/
def decode (w : Cmd) : Decoded :=
  if opcodeOf w = 0x03#8 then .command (.absorb (immOf w))
  else if opcodeOf w = 0x01#8 then bareCommand .ctxnew (immOf w)
  else if opcodeOf w = 0x02#8 then bareCommand .touch (immOf w)
  else if opcodeOf w = 0x04#8 then bareCommand .final (immOf w)
  else .illegal .reservedOpcode

/-- The command of a decoded word, if it has one. -/
def Decoded.instr? : Decoded → Option Instr
  | .command i => some i
  | .illegal _ => none

/-- The encoder, from R72's column of command words. -/
def encode : Instr → Cmd
  | .ctxnew => 0x0100#16
  | .touch => 0x0200#16
  | .absorb b => 0x0300#16 + b.setWidth 16
  | .final => 0x0400#16

/-- The command word the host means by a row's `nbits` bits `w` (every bit above `nbits` is 0). Every command has 16
bits (R75), so the table's numbering of the bits is the word's own. -/
def tableWord (nbits w : Nat) : Cmd := BitVec.ofNat 16 (w % 2 ^ nbits)

/-- The instruction the decoder reads from a word numbered as spec/opcode_table.json numbers it. -/
def decodeTableWord (nbits w : Nat) : Option Instr := (decode (tableWord nbits w)).instr?

end Sys2Proof
end

