-- ==== Sys2Proof/Config.lean ====
section
/-! DEFINITION. The fixed parameters of the engine (R6), and the free values: constants with no body, for what the
spec leaves unspecified (R33, R36, R38). The constant ROM stands in Machine/Crom.lean. -/

namespace Sys2Proof.Config

/-- `BLOCK_BYTES` (R6). -/
def blockBytes : Nat := 64

/-- `DIGEST_BYTES` (R6). -/
def digestBytes : Nat := 20

/-- `STEPS` (R6): steps per line per block. -/
def steps : Nat := 80

/-- A free word, for a 32-bit register whose value the spec leaves unspecified (R33, R36). `draw` counts the draws
(State's `draws`), `slot` tells the registers of one draw apart. Log entries 1, 3 and 4. -/
opaque freeWord (draw slot : Nat) : Word

/-- A free value of the register LEN (R36). Log entries 3 and 4. -/
opaque freeLen (draw : Nat) : BitVec 64

/-- A free value of the register FILL (R36). Log entries 3 and 4. -/
opaque freeFill (draw : Nat) : BitVec 6

/-- A free value of the step counter J; it keeps the bound 0..79 of R30. Log entries 1 and 4. -/
opaque freeJ (draw : Nat) : Fin 80

/-- What a byte of BUF that holds no defined value reads as (R38). Log entries 2 and 4. -/
opaque freeByte (draw index : Nat) : Byte

end Sys2Proof.Config
end

