-- ==== Sys2Proof/Machine/Crom.lean ====
section
/-! DEFINITION. The constant ROM CROM (R52, R110 to R118): nine read-only tables, the same in every instance. The
numbers are the spec's, which itself marks them as supplied from general knowledge (G1 to G6, log entry 11). -/

namespace Sys2Proof.Machine

/-- The initial Chaining State `IV` (R111). -/
def iv : Chain := ⟨0x67452301#32, 0xEFCDAB89#32, 0x98BADCFE#32, 0x10325476#32, 0xC3D2E1F0#32⟩

/-- `KL[g]`, the left line's stage constants (R112). -/
def kl (g : Fin 5) : Word :=
  match g with
  | 0 => 0x00000000#32
  | 1 => 0x5A827999#32
  | 2 => 0x6ED9EBA1#32
  | 3 => 0x8F1BBCDC#32
  | 4 => 0xA953FD4E#32

/-- `KR[g]`, the right line's stage constants (R113). -/
def kr (g : Fin 5) : Word :=
  match g with
  | 0 => 0x50A28BE6#32
  | 1 => 0x5C4DD124#32
  | 2 => 0x6D703EF3#32
  | 3 => 0x7A6D76E9#32
  | 4 => 0x00000000#32

/-- `RL[j]`: message-word selection of the left line, row g holding steps 16g to 16g+15 (R114). -/
def rlTable : List (Fin 16) :=
  [0, 1, 2, 3, 4, 5, 6, 7, 8, 9, 10, 11, 12, 13, 14, 15] ++
  [7, 4, 13, 1, 10, 6, 15, 3, 12, 0, 9, 5, 2, 14, 11, 8] ++
  [3, 10, 14, 4, 9, 15, 8, 1, 2, 7, 0, 6, 13, 11, 5, 12] ++
  [1, 9, 11, 10, 0, 8, 12, 4, 13, 3, 7, 15, 14, 5, 6, 2] ++
  [4, 0, 5, 9, 7, 12, 2, 10, 14, 1, 3, 8, 11, 6, 15, 13]

/-- `RR[j]`: message-word selection of the right line, row g holding steps 16g to 16g+15 (R115). -/
def rrTable : List (Fin 16) :=
  [5, 14, 7, 0, 9, 2, 11, 4, 13, 6, 15, 8, 1, 10, 3, 12] ++
  [6, 11, 3, 7, 0, 13, 5, 10, 14, 15, 8, 12, 4, 9, 1, 2] ++
  [15, 5, 1, 3, 7, 14, 6, 9, 11, 8, 12, 2, 10, 0, 4, 13] ++
  [8, 6, 4, 1, 3, 11, 15, 0, 5, 12, 2, 13, 9, 7, 10, 14] ++
  [12, 15, 10, 4, 1, 5, 8, 7, 6, 2, 13, 14, 0, 3, 9, 11]

/-- `SL[j]`: rotation amounts of the left line, row g holding steps 16g to 16g+15 (R116). -/
def slTable : List Nat :=
  [11, 14, 15, 12, 5, 8, 7, 9, 11, 13, 14, 15, 6, 7, 9, 8] ++
  [7, 6, 8, 13, 11, 9, 7, 15, 7, 12, 15, 9, 11, 7, 13, 12] ++
  [11, 13, 6, 7, 14, 9, 13, 15, 14, 8, 13, 6, 5, 12, 7, 5] ++
  [11, 12, 14, 15, 14, 15, 9, 8, 9, 14, 5, 6, 8, 6, 5, 12] ++
  [9, 15, 5, 11, 6, 8, 13, 12, 5, 12, 13, 14, 11, 8, 5, 6]

/-- `SR[j]`: rotation amounts of the right line, row g holding steps 16g to 16g+15 (R117). -/
def srTable : List Nat :=
  [8, 9, 9, 11, 13, 15, 15, 5, 7, 7, 8, 11, 14, 14, 12, 6] ++
  [9, 13, 15, 7, 12, 8, 9, 11, 7, 7, 12, 7, 6, 15, 13, 11] ++
  [9, 7, 15, 11, 8, 6, 6, 14, 12, 13, 5, 14, 13, 13, 7, 5] ++
  [15, 5, 8, 11, 14, 14, 6, 14, 6, 9, 12, 9, 12, 5, 15, 8] ++
  [8, 5, 12, 9, 12, 5, 14, 6, 8, 13, 6, 5, 15, 13, 11, 11]

theorem rlTable_length : rlTable.length = 80 := rfl
theorem rrTable_length : rrTable.length = 80 := rfl
theorem slTable_length : slTable.length = 80 := rfl
theorem srTable_length : srTable.length = 80 := rfl

/-- `RL[j]` (R114). -/
def rl (j : Fin 80) : Fin 16 := rlTable.get (j.cast rlTable_length.symm)

/-- `RR[j]` (R115). -/
def rr (j : Fin 80) : Fin 16 := rrTable.get (j.cast rrTable_length.symm)

/-- `SL[j]` (R116). -/
def sl (j : Fin 80) : Nat := slTable.get (j.cast slTable_length.symm)

/-- `SR[j]` (R117). -/
def sr (j : Fin 80) : Nat := srTable.get (j.cast srTable_length.symm)

/-- The stage `g = j div 16` of step `j` (R30, R110). -/
def stage (j : Fin 80) : Fin 5 := ⟨j.val / 16, by omega⟩

/-- `FSEL_L[g]`, the boolean function of the left line's stage `g` (R118). -/
def fselL (g : Fin 5) : Fin 5 :=
  match g with
  | 0 => 0
  | 1 => 1
  | 2 => 2
  | 3 => 3
  | 4 => 4

/-- `FSEL_R[g]`, the boolean function of the right line's stage `g` (R118). -/
def fselR (g : Fin 5) : Fin 5 :=
  match g with
  | 0 => 4
  | 1 => 3
  | 2 => 2
  | 3 => 1
  | 4 => 0

end Sys2Proof.Machine
end

