-- ==== Sys2Proof/Machine/State.lean ====
section
/-! DEFINITION. The state of one engine instance (spec/10_state.md), with the events that come in from the host and the
responses that go out to it, and the state right after reset (R35, R210). -/

namespace Sys2Proof.Machine

/-- PHASE, the tag of the context state machine (R27). Value 3 of the 2-bit register is unreachable and has no
constructor (U6). -/
inductive Phase where
  | empty
  | accumulating
  | finalized
  deriving DecidableEq, Repr

/-- The response status (R77). Code 3 is never produced and has no constructor (U5). -/
inductive Status where
  | ok
  | misuse
  | illegal
  deriving DecidableEq, Repr

/-- A response: status and the 160-bit digest field (R76, R78). -/
structure Response where
  status : Status
  digest : BitVec 160
  deriving DecidableEq, Repr

/-- What the host does to the engine at its boundary, in the order it takes effect (R12(8), R70, R79). -/
inductive HostEvent where
  /-- A command word is accepted, and its response will be delivered. -/
  | command (w : Cmd)
  /-- `rst` is asserted while no command is in progress (R210). -/
  | reset
  /-- A command word is accepted, and `rst` is asserted before its response is delivered (R212). -/
  | commandCutByReset (w : Cmd)
  deriving DecidableEq, Repr

/-- The hidden state (R33): it exists only inside COMPRESS, and between commands its value is unspecified. -/
structure Hidden where
  /-- `J`, the scheduler's step counter: 7 bits, values 0 to 79; 80 is never stored (R30). -/
  j : Fin 80
  /-- `AL, BL, CL, DL, EL` (R22). -/
  left : Working
  /-- `AR, BR, CR, DR, ER` (R22). -/
  right : Working
  /-- `TL`, the left mixer's temporary (R32). -/
  tl : Word
  /-- `TR`, the right mixer's temporary (R32). -/
  tr : Word
  deriving DecidableEq, Repr

/-- All the state of one engine instance. `inputs`, `responses` and `draws` are the model's own: the host's side of the
boundary and the counter of free values (log entries 4, 5, 6). The fields stand in an order that lets Lean tell two
states apart without running the scheduler. -/
structure State where
  /-- How many times free values have been drawn. -/
  draws : Nat
  /-- The hidden state (R33). -/
  hidden : Hidden
  /-- `PHASE` (R27). -/
  phase : Phase
  /-- `FILL`, the number of pending bytes (R26). -/
  fill : BitVec 6
  /-- `LEN`, the bytes absorbed, modulo 2^64 (R25). -/
  len : BitVec 64
  /-- `BUF[0..63]` (R26, R50): the bytes that hold a defined value, by strictly rising index. An index that is not
  listed holds no defined value (R38, log entry 2). -/
  buf : List Host.Cell
  /-- `H[0..4]`, the Chaining State (R20). -/
  h : Chain
  /-- The host's events that have not taken effect yet, oldest first. -/
  inputs : List HostEvent
  /-- The responses delivered so far, oldest first. -/
  responses : List Response
  deriving DecidableEq, Repr

/-- No constructor: nothing stops this engine. MISUSE and ILLEGAL are ordinary responses (R193), and no address,
alignment, arithmetic or bus fault exists (R192, R195). Nobody raises a fault, so none is unsafe (log entry 10). -/
inductive Fault
  deriving DecidableEq, Repr

/-- Why a command has no meaning in the model. -/
inductive Refusal where
  /-- Raised by a refused arm of `exec` for a command that has no meaning yet: safe, since nothing can be proved of
  what it does. No arm raises it now. -/
  | notModelled (mnemonic : String)
  deriving DecidableEq, Repr

/-- A working state with all five words zero. -/
def Working.zero : Working := ⟨0#32, 0#32, 0#32, 0#32, 0#32⟩

/-- The hidden state the model starts from. The spec gives it no value (R210): DESIGN CHOICE, log entry 1, unsafe. -/
def Hidden.atReset : Hidden := ⟨0, Working.zero, Working.zero, 0#32, 0#32⟩

/-- The machine right after reset (R35, R210): Empty, LEN 0, FILL 0, H = IV, no byte of BUF defined; no event is waiting
and no response has been given. -/
def State.reset : State where
  h := iv
  buf := []
  fill := 0#6
  len := 0#64
  phase := .empty
  hidden := Hidden.atReset
  inputs := []
  responses := []
  draws := 0

end Sys2Proof.Machine
end

