-- ==== Sys2Proof/Machine/Operands.lean ====
section
/-! DEFINITION. Byte-order functions, rotation, the word view of a block, and the digest field of a response
(R8, R9, R54, R55, R78, R166). -/

namespace Sys2Proof.Machine

/-- `LE32(w)`: the four bytes of a word, least significant first (R9). -/
def le32 (w : Word) : List Byte :=
  [w.extractLsb' 0 8, w.extractLsb' 8 8, w.extractLsb' 16 8, w.extractLsb' 24 8]

/-- `LE64(v)`: the eight bytes of a 64-bit value, least significant first (R9). -/
def le64 (v : BitVec 64) : List Byte :=
  [v.extractLsb' 0 8, v.extractLsb' 8 8, v.extractLsb' 16 8, v.extractLsb' 24 8,
   v.extractLsb' 32 8, v.extractLsb' 40 8, v.extractLsb' 48 8, v.extractLsb' 56 8]

/-- `W32(b0, b1, b2, b3) = b0 + 2^8*b1 + 2^16*b2 + 2^24*b3` (R9). -/
def w32 (b0 b1 b2 b3 : Byte) : Word :=
  BitVec.ofNat 32 (b0.toNat + 2 ^ 8 * b1.toNat + 2 ^ 16 * b2.toNat + 2 ^ 24 * b3.toNat)

/-- `rol(a, n) = ((a * 2^n) mod 2^32) + (a div 2^(32-n))`, for 1 <= n <= 31 (R8). Other `n` never occur (U15, log entry
13). -/
def rol (a : Word) (n : Nat) : Word :=
  BitVec.ofNat 32 (a.toNat * 2 ^ n % 2 ^ 32 + a.toNat / 2 ^ (32 - n))

/-- Byte `k` of a block. Every block the engine forms has 64 bytes, so the default is never read (log entry 13). -/
def blockByte (block : List Byte) (k : Nat) : Byte := block.getD k 0x00#8

/-- The word view `X[i] = W32(BUF[4i], BUF[4i+1], BUF[4i+2], BUF[4i+3])` (R54). -/
def wordView (block : List Byte) (i : Fin 16) : Word :=
  w32 (blockByte block (4 * i.val)) (blockByte block (4 * i.val + 1))
    (blockByte block (4 * i.val + 2)) (blockByte block (4 * i.val + 3))

/-- `SERIALIZE(h)`: the 20 digest bytes `DG[0..19]` (R166). -/
def serialize (h : Chain) : List Byte :=
  le32 h.h0 ++ le32 h.h1 ++ le32 h.h2 ++ le32 h.h3 ++ le32 h.h4

/-- A sequence of bytes read as a number, the first byte least significant. -/
def littleEndian : List Byte → Nat
  | [] => 0
  | b :: bs => b.toNat + 2 ^ 8 * littleEndian bs

/-- `rsp_digest[159:0]` for the digest bytes: byte `k` on `rsp_digest[8k+7:8k]` (R78). -/
def digestField (bytes : List Byte) : BitVec 160 := BitVec.ofNat 160 (littleEndian bytes)

end Sys2Proof.Machine
end

