-- ==== Sys2Proof/Machine/Compression.lean ====
section
/-! DEFINITION. The compression engine CENG (spec/42_compression.md): the boolean functions, the word mixer, the
dual-line round scheduler on the hidden registers, the two lines as folds, COMBINE and COMPRESS. -/

namespace Sys2Proof.Machine

/-- `F(k, x, y, z)`, the five boolean functions (R131). -/
def boolF (k : Fin 5) (x y z : Word) : Word :=
  match k with
  | 0 => x ^^^ y ^^^ z
  | 1 => (x &&& y) ||| (~~~x &&& z)
  | 2 => (x ||| ~~~y) ^^^ z
  | 3 => (x &&& z) ||| (y &&& ~~~z)
  | 4 => x ^^^ (y ||| ~~~z)

/-- The temporary T of one step: `rol(A + F(k, B, C, D) + x + c, s) + E` (R135). -/
def mixT (w : Working) (k : Fin 5) (x c : Word) (s : Nat) : Word :=
  rol (w.a + boolF k w.b w.c w.d + x + c) s + w.e

/-- The role rotation after T is formed (R137): the new `(A, B, C, D, E)` is `(E, T, B, rol(C, 10), D)`. -/
def rotateRoles (w : Working) (t : Word) : Working := ⟨w.e, t, w.b, rol w.c 10, w.d⟩

/-- `STEP(w, k, x, c, s)`, the word mixer (R135); MIXL and MIXR are two instances of it. -/
def mixStep (w : Working) (k : Fin 5) (x c : Word) (s : Nat) : Working := rotateRoles w (mixT w k x c s)

/-- The operands the scheduler presents to a mixer at one step (R138). -/
structure MixOperands where
  k : Fin 5
  x : Word
  c : Word
  s : Nat

/-- The left row of R138. -/
def leftOperands (x : Fin 16 → Word) (j : Fin 80) : MixOperands :=
  ⟨fselL (stage j), x (rl j), kl (stage j), sl j⟩

/-- The right row of R138. -/
def rightOperands (x : Fin 16 → Word) (j : Fin 80) : MixOperands :=
  ⟨fselR (stage j), x (rr j), kr (stage j), sr j⟩

/-- One pass of a mixer, on the operands presented to it. -/
def MixOperands.run (o : MixOperands) (w : Working) : Working := mixStep w o.k o.x o.c o.s

/-- Seeding (R134): both lines take the same five words, in order, and J is 0. There is no cross-wiring (C2). TL and TR
are not written. -/
def Hidden.seed (h : Chain) (d : Hidden) : Hidden :=
  { d with left := ⟨h.h0, h.h1, h.h2, h.h3, h.h4⟩, right := ⟨h.h0, h.h1, h.h2, h.h3, h.h4⟩, j := 0 }

/-- One loop body of the scheduler (R140, R141): both mixers take their step `J`; the temporaries hold the value T that
became the second word (R32). -/
def Hidden.stepPair (x : Fin 16 → Word) (d : Hidden) : Hidden :=
  let l := (leftOperands x d.j).run d.left
  let r := (rightOperands x d.j).run d.right
  { d with left := l, right := r, tl := l.b, tr := r.b }

/-- The scheduler's loop (R141): after a step pair it is done when `J == 79`, else `J <- J + 1` and again. The first
argument bounds the passes; 80 are enough from `J = 0`. -/
def Hidden.loop (x : Fin 16 → Word) : Nat → Hidden → Hidden
  | 0, d => d
  | n + 1, d =>
    let d' := d.stepPair x
    if d'.j.val = 79 then d' else Hidden.loop x n { d' with j := d'.j + 1 }

/-- The scheduler's whole run for one block: seeding, then the loop (R141). Irreducible for the elaborator, so that no
`rfl` on states unrolls 80 steps; `Hidden.schedule_eq` (Laws/Ops.lean) unfolds it, and the kernel evaluates it. -/
@[irreducible]
def Hidden.schedule (h : Chain) (x : Fin 16 → Word) (d : Hidden) : Hidden :=
  (d.seed h).loop x Config.steps

/-- `COMBINE(h, wL, wR)` (R142); every right-hand side reads the old `h`. -/
def combine (h : Chain) (l r : Working) : Chain :=
  ⟨h.h1 + l.c + r.d, h.h2 + l.d + r.e, h.h3 + l.e + r.a, h.h4 + l.a + r.b, h.h0 + l.b + r.c⟩

/-- `LINE_L(h, X)` as a fold over j = 0..79 (R139). -/
def lineL (h : Chain) (x : Fin 16 → Word) : Working :=
  (List.finRange 80).foldl (fun w j => (leftOperands x j).run w) ⟨h.h0, h.h1, h.h2, h.h3, h.h4⟩

/-- `LINE_R(h, X)` as a fold over j = 0..79 (R139). -/
def lineR (h : Chain) (x : Fin 16 → Word) : Working :=
  (List.finRange 80).foldl (fun w j => (rightOperands x j).run w) ⟨h.h0, h.h1, h.h2, h.h3, h.h4⟩

/-- `COMPRESS(h, block)`, the pure function (R130, R143). The engine computes it with the scheduler on its hidden
registers (`State.compressBlock`). -/
def compress (h : Chain) (block : List Byte) : Chain :=
  combine h (lineL h (wordView block)) (lineR h (wordView block))

end Sys2Proof.Machine
end

