-- ==== Sys2Proof/Machine/Flags.lean ====
section
/-! DEFINITION. The machine's only flag, PHASE (R27), and the response status (R77): their codes, and the phase check. -/

namespace Sys2Proof.Machine

/-- The 2-bit encoding of PHASE (R27, D27). -/
def Phase.code : Phase → BitVec 2
  | .empty => 0#2
  | .accumulating => 1#2
  | .finalized => 2#2

/-- The 2-bit status code on `rsp_status` (R77). -/
def Status.code : Status → BitVec 2
  | .ok => 0#2
  | .misuse => 1#2
  | .illegal => 2#2

/-- The phase check of TOUCH, ABSORB and FINAL (R190). -/
def State.isFinalized (s : State) : Bool := decide (s.phase = .finalized)

end Sys2Proof.Machine
end

