-- ==== Sys2Proof/Machine/Ops.lean ====
section
/-! DEFINITION. The shared operations: the block buffer (R10, R50, R53), responding and raising an error status (R10,
R76, R198), one COMPRESS on the machine's registers (R143), the drain (R163), a fresh context (R160, R210), and what
becomes unspecified (R33, R36, R38). -/

namespace Sys2Proof.Machine

/-! ### The block buffer -/

/-- The canonical form of the buffer: indices strictly rising, each below 64 (R50). An index that is not listed holds no
defined value, so no entry can equal what an unlisted index reads as (log entry 2). -/
def Memory.wf (m : List Host.Cell) : Bool :=
  decide ((m.map Prod.fst).Pairwise (· < ·)) && (m.map Prod.fst).all (· < 64)

/-- The defined value of `BUF[k]`, if it has one. -/
def Memory.read? : List Host.Cell → Nat → Option Byte
  | [], _ => none
  | (a, b) :: m, k => if a = k then some b else Memory.read? m k

/-- `BUF[k] <- v`, keeping the indices strictly rising. -/
def Memory.write : List Host.Cell → Nat → Byte → List Host.Cell
  | [], k, v => [(k, v)]
  | (a, b) :: m, k, v =>
    if k < a then (k, v) :: (a, b) :: m
    else if k = a then (k, v) :: m
    else (a, b) :: Memory.write m k v

/-- The buffer space is addressed by a 6-bit index (R50). No rule passes an index above 63, so the wrap never shows
(log entry 13). -/
def bufIndex (k : Nat) : Nat := k % 64

/-- `MemWrite(k, n, v)` for the n-byte sequence `v` (R10): the bytes go to `BUF[k], BUF[k+1], ...`. -/
def Memory.writeBytes : List Host.Cell → Nat → List Byte → List Host.Cell
  | m, _, [] => m
  | m, k, v :: vs => Memory.writeBytes (Memory.write m (bufIndex k) v) (k + 1) vs

/-- What reading `BUF[k]` gives: its defined value, or a free value where it has none (R38, log entry 2). -/
def State.bufByte (s : State) (k : Nat) : Byte :=
  (Memory.read? s.buf (bufIndex k)).getD (Config.freeByte s.draws (bufIndex k))

/-- `MemRead(k, n)`: the sequence `BUF[k], ..., BUF[k+n-1]` (R10). -/
def State.memRead (s : State) (k n : Nat) : List Byte := (List.range n).map fun i => s.bufByte (k + i)

/-- `MemWrite(k, n, v)` on the machine (R10). -/
def State.memWrite (s : State) (k : Nat) (v : List Byte) : State := { s with buf := Memory.writeBytes s.buf k v }

/-- The pending bytes `BUF[0..FILL-1]`, in arrival order (R26, R53). -/
def State.pending (s : State) : List Byte := s.memRead 0 s.fill.toNat

/-! ### Responses -/

/-- Deliver one response (R76). -/
def State.respond (st : Status) (digest : BitVec 160) (s : State) : State :=
  { s with responses := s.responses ++ [⟨st, digest⟩] }

/-- `raise MISUSE` and `raise ILLEGAL` (R10, R190, R191): the command ends with that status, the digest field 0, and no
state change. This is all there is to an error: nothing is saved and control goes nowhere (R198), and there is no
return from it (R199). -/
def State.raise (st : Status) (s : State) : State := s.respond st 0#160

/-! ### What becomes unspecified -/

/-- Hidden registers with free values (R33). -/
def freeHidden (draw : Nat) : Hidden where
  left := ⟨Config.freeWord draw 0, Config.freeWord draw 1, Config.freeWord draw 2, Config.freeWord draw 3,
    Config.freeWord draw 4⟩
  right := ⟨Config.freeWord draw 5, Config.freeWord draw 6, Config.freeWord draw 7, Config.freeWord draw 8,
    Config.freeWord draw 9⟩
  tl := Config.freeWord draw 10
  tr := Config.freeWord draw 11
  j := Config.freeJ draw

/-- A Chaining State with free values (R36). -/
def freeChain (draw : Nat) : Chain :=
  ⟨Config.freeWord draw 12, Config.freeWord draw 13, Config.freeWord draw 14, Config.freeWord draw 15,
    Config.freeWord draw 16⟩

/-- After an operation that used the hidden registers, their values are unspecified (R33): a fresh draw. -/
def State.forgetHidden (s : State) : State := { s with hidden := freeHidden s.draws, draws := s.draws + 1 }

/-- The bytes of BUF lose their meaning (R38, R146): none is erased, and none has a defined value any more. Each user of
this operation takes a fresh draw where a byte loses its value (log entry 15). -/
def State.forgetBuffer (s : State) : State := { s with buf := [] }

/-- After a successful FINAL the values of H, BUF, FILL and LEN are unspecified (R36, R165), and the hidden registers as
after every COMPRESS (R33): a fresh draw. -/
def State.forgetContext (s : State) : State :=
  { s with
    h := freeChain s.draws
    buf := []
    fill := Config.freeFill s.draws
    len := Config.freeLen s.draws
    hidden := freeHidden s.draws
    draws := s.draws + 1 }

/-! ### Context operations -/

/-- What CTXNEW and reset have in common (R160, R210): H = IV, LEN = 0, FILL = 0, PHASE = Empty. BUF is not written; its
bytes become undefined (R38, R59). DESIGN CHOICE (log entry 15): where a byte of BUF loses its defined value here, the
undefined bytes take a fresh draw; where none held one, BUF stays as undefined as it was and no draw is taken, so that
CTXNEW in phase Empty changes nothing (R160). -/
def State.freshContext (s : State) : State :=
  { s with
    h := iv
    len := 0#64
    fill := 0#6
    phase := .empty
    draws := if s.buf.isEmpty then s.draws else s.draws + 1 }.forgetBuffer

/-- `H <- COMPRESS(H, block)` on the machine (R141, R143): the scheduler runs on the hidden registers, then COMBINE
writes H once (R146). -/
def State.compressBlock (s : State) (block : List Byte) : State :=
  let d := s.hidden.schedule s.h (wordView block)
  { s with hidden := d, h := combine s.h d.left d.right }

/-- The drain (R163): COMPRESS on the 64 bytes of BUF, FILL <- 0; the bytes and the hidden registers lose their
meaning. -/
def State.drain (s : State) : State :=
  { s.compressBlock (s.memRead 0 Config.blockBytes) with fill := 0#6 }.forgetBuffer.forgetHidden

/-- The reset event (R210): a fresh context, and hidden registers without a given value. It gives no response (R215). -/
def State.assertReset (s : State) : State := s.freshContext.forgetHidden

end Sys2Proof.Machine
end

