-- ==== Sys2Proof/Machine/Padding.lean ====
section
/-! DEFINITION. The finalization padding logic PADL (spec/40_padding.md): PAD as a pure function, and its in-place form
on the block buffer. -/

namespace Sys2Proof.Machine

/-- `bitlen = (len * 8) mod 2^64` (R94). -/
def bitLength (len : BitVec 64) : BitVec 64 := len * 8#64

/-- `PAD(fill, len, pend)` (R91): one block when `fill <= 55`, two when `56 <= fill <= 63` (R92, R93). -/
def pad (fill : BitVec 6) (len : BitVec 64) (pend : List Byte) : List (List Byte) :=
  if fill.toNat ≤ 55 then
    [pend ++ [0x80#8] ++ List.replicate (55 - fill.toNat) 0x00#8 ++ le64 (bitLength len)]
  else
    [pend ++ [0x80#8] ++ List.replicate (63 - fill.toNat) 0x00#8,
      List.replicate 56 0x00#8 ++ le64 (bitLength len)]

/-- The loop of FINAL (R164): `for each block P in PAD(...): H <- COMPRESS(H, P)`. -/
def State.compressBlocks (s : State) (blocks : List (List Byte)) : State := blocks.foldl State.compressBlock s

/-- The in-place form of that loop, as unit PADL performs it on BUF (R95). -/
def State.padInPlace (s : State) : State :=
  let n := s.fill.toNat
  let s1 := s.memWrite n [0x80#8]
  if n ≤ 55 then
    let s2 := (s1.memWrite (n + 1) (List.replicate (55 - n) 0x00#8)).memWrite 56 (le64 (bitLength s.len))
    s2.compressBlock (s2.memRead 0 64)
  else
    let s2 := s1.memWrite (n + 1) (List.replicate (63 - n) 0x00#8)
    let s3 := s2.compressBlock (s2.memRead 0 64)
    let s4 := (s3.memWrite 0 (List.replicate 56 0x00#8)).memWrite 56 (le64 (bitLength s.len))
    s4.compressBlock (s4.memRead 0 64)

end Sys2Proof.Machine
end

