-- ==== Sys2Proof/Machine/Context.lean ====
section
/-! DEFINITION. The meanings of the four commands (spec/43_context_commands.md), executed by the context controller
CTL. Each is one atomic transition and gives one response. -/

namespace Sys2Proof.Machine

/-- What a command answers. -/
abbrev Result := Host.Outcome State Fault Refusal

/-- `CTXNEW` (R160): legal in every phase, always OK. -/
def execCtxnew (s : State) : Result := .next (s.freshContext.respond .ok 0#160)

/-- `TOUCH` (R161). -/
def execTouch (s : State) : Result :=
  if s.isFinalized then .next (s.raise .misuse)
  else .next ({ s with phase := .accumulating }.respond .ok 0#160)

/-- `BUF[FILL] <- b` and `LEN <- (LEN + 1) mod 2^64` (R162). -/
def State.takeByte (s : State) (b : Byte) : State := { s.memWrite s.fill.toNat [b] with len := s.len + 1#64 }

/-- The advance of FILL (R162): the drain when FILL is 63 (R163), else `FILL + 1`. -/
def State.advanceFill (s : State) : State := if s.fill = 63#6 then s.drain else { s with fill := s.fill + 1#6 }

/-- `ABSORB b` (R162). -/
def execAbsorb (b : Byte) (s : State) : Result :=
  if s.isFinalized then .next (s.raise .misuse)
  else .next ({ (s.takeByte b).advanceFill with phase := .accumulating }.respond .ok 0#160)

/-- `FINAL` (R164): COMPRESS over the one or two blocks of PAD, answer SERIALIZE(H), PHASE <- Finalized; what the context
held is unspecified afterwards (R165). -/
def execFinal (s : State) : Result :=
  if s.isFinalized then .next (s.raise .misuse)
  else
    let t := s.compressBlocks (pad s.fill s.len s.pending)
    .next ({ t.forgetContext with phase := .finalized }.respond .ok (digestField (serialize t.h)))

end Sys2Proof.Machine
end

