-- ==== Sys2Proof/Machine/Events.lean ====
section
/-! DEFINITION. What one host event does (R60, R76, R80, R191, R197, R210, R212); Step.lean takes the events in order. -/

namespace Sys2Proof.Machine

/-- An accepted command word (R80, R197): the decoder looks first, at the word alone, and an illegal word answers ILLEGAL
in every phase (R191); a command is executed. -/
def runWord (w : Cmd) (s : State) : Result :=
  match decode w with
  | .command i => exec i s
  | .illegal _ => .next (s.raise .illegal)

/-- One host event. A reset between commands has the effect of R210; a reset before the response is delivered replaces
the command's effect by that of reset and suppresses its response (R212). -/
def runEvent (e : HostEvent) (s : State) : Result :=
  match e with
  | .command w => runWord w s
  | .reset => .next s.assertReset
  | .commandCutByReset _ => .next s.assertReset

/-- The host presents one more event, to be taken before those already waiting. -/
def State.presentFirst (e : HostEvent) (s : State) : State := { s with inputs := e :: s.inputs }

end Sys2Proof.Machine
end

