-- ==== Sys2Proof/Machine/Step.lean ====
section
/-! DEFINITION. One step of the machine: the oldest waiting host event takes effect, whole (R58, R60); with no event
waiting the engine is idle and holds its state (R203). -/

namespace Sys2Proof.Machine

/-- One step. -/
def step (s : State) : Host.Outcome State Fault Refusal :=
  match s.inputs with
  | [] => .next s
  | e :: rest => runEvent e { s with inputs := rest }

/-- The state in which the host presents the table word `w` as its next command. The engine stores no program (R31):
its commands come from the host, and this stands for the host's presenting one (log entry 5). -/
def State.withFetchWord (s : State) (nbits w : Nat) : State := s.presentFirst (.command (tableWord nbits w))

end Sys2Proof.Machine
end

