-- ==== Sys2Proof/Machine/Ports.lean ====
section
/-! DEFINITION. The ports of R70, as far as the spec says what their signals mean: which sampled signals make which host
events, and what a response puts on the response port. When signals change is left open (R220, log entry 9). -/

namespace Sys2Proof.Machine

/-- The handshake signals of R70 in one clock cycle. -/
structure PortSample where
  rst : Bool
  cmdValid : Bool
  cmdReady : Bool
  cmd : Cmd
  rspValid : Bool
  rspReady : Bool
  deriving DecidableEq, Repr

/-- A command is accepted in a cycle where `cmd_valid` and `cmd_ready` are 1 and `rst` is 0 (R70). -/
def PortSample.accepts (p : PortSample) : Bool := p.cmdValid && p.cmdReady && !p.rst

/-- A response is delivered in a cycle where `rsp_valid` and `rsp_ready` are 1 (R70); `rsp_valid` is 0 while `rst` is
asserted (R213). -/
def PortSample.delivers (p : PortSample) : Bool := p.rspValid && p.rspReady && !p.rst

/-- The host events of a run of cycles. `open_` lists the accepted words whose response has not been delivered, oldest
first; responses are delivered in that order (R76), and a reset cuts all of them (R212). A word still open at the end
will be answered (R79). -/
def eventsOfSamples : List Cmd → List PortSample → List HostEvent
  | open_, [] => open_.map .command
  | open_, p :: ps =>
    if p.rst then open_.map .commandCutByReset ++ .reset :: eventsOfSamples [] ps
    else
      let now := if p.accepts then open_ ++ [p.cmd] else open_
      if p.delivers then (now.take 1).map .command ++ eventsOfSamples (now.drop 1) ps
      else eventsOfSamples now ps

/-- The state of an engine at whose ports those cycles are to happen. -/
def State.drive (samples : List PortSample) (s : State) : State :=
  { s with inputs := s.inputs ++ eventsOfSamples [] samples }

/-- `rsp_status[1:0]` and `rsp_digest[159:0]` of a response (R77, R78). -/
def Response.ports (r : Response) : BitVec 2 × BitVec 160 := (r.status.code, r.digest)

end Sys2Proof.Machine
end

