-- ==== Sys2Proof/Machine/Pseudo.lean ====
section
/-! DEFINITION. The pseudo-commands UPDATE and DIGEST (R82, R83), and playing a sequence of host events (R79). -/

namespace Sys2Proof.Machine

/-- `UPDATE b0 ... b(n-1)` (R82): TOUCH for no byte, else one ABSORB per byte, in order. -/
def updateCommands (bytes : List Byte) : List Instr :=
  match bytes with
  | [] => [.touch]
  | b :: bs => (b :: bs).map Instr.absorb

/-- `DIGEST b0 ... b(n-1)` (R83): CTXNEW, UPDATE, FINAL. -/
def digestCommands (bytes : List Byte) : List Instr := .ctxnew :: (updateCommands bytes ++ [.final])

/-- The host events that send commands, each whole. -/
def asEvents (cmds : List Instr) : List HostEvent := cmds.map fun i => .command (encode i)

/-- `n` steps, stopping at the first that does not answer a next state. -/
def stepMany : Nat → State → Result
  | 0, s => .next s
  | n + 1, s =>
    match step s with
    | .next t => stepMany n t
    | .fault r => .fault r
    | .refused r => .refused r

/-- The host sends `events` before those already waiting, and the engine takes them all (R79). -/
def State.play (events : List HostEvent) (s : State) : Result :=
  stepMany events.length { s with inputs := events ++ s.inputs }

end Sys2Proof.Machine
end

