-- ==== Sys2Proof/Machine/Reference.lean ====
section
/-! DEFINITION. The message-level functions the spec's claims are stated with: the blocks of a byte sequence, the fold of
COMPRESS over them (R34(d)), and the digest of a whole message (R168). -/

namespace Sys2Proof.Machine

/-- The first `floor(|m| / 64)` 64-byte blocks of `m`, in order. -/
def fullBlocks (m : List Byte) : List (List Byte) :=
  (List.range (m.length / 64)).map fun i => (m.drop (64 * i)).take 64

/-- The last `|m| mod 64` bytes of `m`. -/
def leftover (m : List Byte) : List Byte := m.drop (64 * (m.length / 64))

/-- The fold of COMPRESS over a list of blocks. -/
def compressAll (h : Chain) (blocks : List (List Byte)) : Chain := blocks.foldl compress h

/-- R168's `pad` for a message of `n` bytes: `0x80`, then `(55 - n) mod 64` zero bytes, then `LE64(8n)`. -/
def messagePadding (n : Nat) : List Byte :=
  0x80#8 :: (List.replicate ((55 - (n : Int)) % 64).toNat 0x00#8 ++ le64 (BitVec.ofNat 64 (8 * n)))

/-- The RIPEMD-160 digest of a message (R168): SERIALIZE of the fold of COMPRESS from IV over the blocks of `m || pad`. -/
def ripemd160 (m : List Byte) : List Byte :=
  serialize (compressAll iv (fullBlocks (m ++ messagePadding m.length)))

/-- The cells of a buffer that holds exactly these bytes from index 0. -/
def cells (bytes : List Byte) : List Host.Cell := (List.range bytes.length).zip bytes

end Sys2Proof.Machine
end

