-- ==== Sys2Proof/Safety.lean ====
section
/-! DEFINITION. What the spec promises of every state (R34), which message a context holds (R34(d)), when two states
cannot be told apart by any response (R33, R36, R38, R161), and when a host is correctly sequenced (R193, R195). -/

namespace Sys2Proof.Machine

/-- The invariants of R34, (a) by the type of PHASE, (b) and (c) as written, and for (d) that exactly the pending bytes
are defined; and the canonical form of the buffer. In phase Finalized no byte of BUF is defined (R34(e)). -/
abbrev State.Inv (s : State) : Prop :=
  Memory.wf s.buf = true ∧
  (s.phase = .empty → s.len = 0#64 ∧ s.fill = 0#6 ∧ s.h = iv) ∧
  (s.phase ≠ .finalized → s.fill.toNat = s.len.toNat % 64) ∧
  (s.phase ≠ .finalized → s.buf.map Prod.fst = List.range s.fill.toNat) ∧
  (s.phase = .finalized → s.buf = [])

/-- The context holds the message `m` (R34(d)): `m` is the bytes absorbed since the last CTXNEW or reset. -/
abbrev State.HoldsMessage (s : State) (m : List Byte) : Prop :=
  s.phase ≠ .finalized ∧
  s.len.toNat = m.length % 2 ^ 64 ∧
  s.fill.toNat = m.length % 64 ∧
  s.buf = cells (leftover m) ∧
  s.h = compressAll iv (fullBlocks m)

/-- Two engines no response will ever tell apart: the same events wait for both, and both are Finalized, or neither is
and they agree on H, LEN, FILL and the pending bytes. Empty and Accumulating count as one (R161); the registers of a
finalized context (R36), the bytes of BUF at or above FILL (R38) and the hidden registers (R33) do not count. -/
abbrev State.SameFuture (s t : State) : Prop :=
  s.inputs = t.inputs ∧
  ((s.phase = .finalized ∧ t.phase = .finalized) ∨
    (s.phase ≠ .finalized ∧ t.phase ≠ .finalized ∧
      s.h = t.h ∧ s.len = t.len ∧ s.fill = t.fill ∧ s.pending = t.pending))

/-- Every response from index `n` on is OK: a correctly sequenced host since then (R193, R195). -/
abbrev State.allOkSince (s : State) (n : Nat) : Prop := ∀ r ∈ s.responses.drop n, r.status = .ok

/-! ### The table of the context state machine -/

/-- The columns of R171's table. -/
inductive Column where
  | ctxnew
  | touch
  | absorb
  | final
  | illegalWord
  | reset
  deriving DecidableEq, Repr

/-- The column a host event falls in. A command cut short by reset counts as reset (R212). -/
def columnOf : HostEvent → Column
  | .command w =>
    match decode w with
    | .command .ctxnew => .ctxnew
    | .command .touch => .touch
    | .command (.absorb _) => .absorb
    | .command .final => .final
    | .illegal _ => .illegalWord
  | .reset => .reset
  | .commandCutByReset _ => .reset

/-- One cell of R171's table: the status of the response (none where there is no response) and the next phase. -/
def stateMachineCell : Phase → Column → Option Status × Phase
  | .empty, .ctxnew => (some .ok, .empty)
  | .empty, .touch => (some .ok, .accumulating)
  | .empty, .absorb => (some .ok, .accumulating)
  | .empty, .final => (some .ok, .finalized)
  | .empty, .illegalWord => (some .illegal, .empty)
  | .empty, .reset => (none, .empty)
  | .accumulating, .ctxnew => (some .ok, .empty)
  | .accumulating, .touch => (some .ok, .accumulating)
  | .accumulating, .absorb => (some .ok, .accumulating)
  | .accumulating, .final => (some .ok, .finalized)
  | .accumulating, .illegalWord => (some .illegal, .accumulating)
  | .accumulating, .reset => (none, .empty)
  | .finalized, .ctxnew => (some .ok, .empty)
  | .finalized, .touch => (some .misuse, .finalized)
  | .finalized, .absorb => (some .misuse, .finalized)
  | .finalized, .final => (some .misuse, .finalized)
  | .finalized, .illegalWord => (some .illegal, .finalized)
  | .finalized, .reset => (none, .empty)

end Sys2Proof.Machine
end

