-- ==== Sys2Proof/Certificates/Slice0/Obligations.lean ====
section
/-! DEFINITION. The statements for the provers. Each docstring names the rule it formalises, or says what it rests on.
No statement rests on a free value, on the value an undefined byte reads as, or on the model's choice of the hidden
registers' values at reset (log entries 1 to 4). -/

open Sys2Proof Sys2Proof.Machine

/-! ### Reset and the start state -/

/-- R35: what reset leaves in PHASE, LEN, FILL and H. Of BUF and the hidden state the rule gives no value, and nothing is
said here. -/
def Obligations.ResetLeavesAnEmptyContext : Prop :=
  State.reset.phase = .empty ∧ State.reset.len = 0#64 ∧ State.reset.fill = 0#6 ∧
  State.reset.h.words = [0x67452301#32, 0xEFCDAB89#32, 0x98BADCFE#32, 0x10325476#32, 0xC3D2E1F0#32]

/-- R34, first half of the induction: the invariant holds at reset. -/
def Obligations.ResetMeetsInvariants : Prop := State.reset.Inv ∧ State.reset.HoldsMessage []

/-- R210, R215: the reset event, from any state. H, LEN, FILL and PHASE take their values, no byte of BUF keeps a
defined one, and no response is given; the hidden registers are not constrained. -/
def Obligations.ResetEventStartsAnEmptyContextSilently : Prop :=
  ∀ (s : State) (rest : List HostEvent), s.inputs = .reset :: rest →
    ∃ t, step s = .next t ∧ t.phase = .empty ∧ t.len = 0#64 ∧ t.fill = 0#6 ∧
      t.h = ⟨0x67452301#32, 0xEFCDAB89#32, 0x98BADCFE#32, 0x10325476#32, 0xC3D2E1F0#32⟩ ∧
      (∀ k : Nat, Memory.read? t.buf k = none) ∧ t.responses = s.responses ∧ t.inputs = rest

/-- R212: a command cut short by reset, whatever its word and whatever it would have done, has the effect of the reset
event and its response is suppressed. -/
def Obligations.CommandCutByResetActsAsReset : Prop :=
  ∀ (s : State) (w : Cmd) (rest : List HostEvent), s.inputs = .commandCutByReset w :: rest →
    step s = step { s with inputs := .reset :: rest } ∧
    ∃ t, step s = .next t ∧ t.responses = s.responses ∧ t.phase = .empty ∧ t.h = iv ∧ t.len = 0#64 ∧ t.fill = 0#6

/-! ### Decoding and stepping -/

/-- R72, R80: every command's word decodes to it and to nothing else, and every word that decodes to a command is that
command's word. -/
def Obligations.DecodeAndEncodeAgree : Prop :=
  ∀ (w : Cmd) (i : Instr), i.wellFormed = true → (decode w = .command i ↔ encode i = w)

/-- R74: exactly the words the rule lists are refused, they are the words that fit none of the four patterns, and 259
words are legal, 65277 illegal. -/
def Obligations.IllegalWordsAreExactlyTheReservedOnes : Prop :=
  (∀ w : Cmd, legalWord w = false ↔
    ((opcodeOf w = 0x00#8 ∨ 0x05#8 ≤ opcodeOf w) ∨
      ((opcodeOf w = 0x01#8 ∨ opcodeOf w = 0x02#8 ∨ opcodeOf w = 0x04#8) ∧ immOf w ≠ 0x00#8))) ∧
  (∀ w : Cmd, legalWord w = false ↔ ∃ why, decode w = .illegal why) ∧
  ((Finset.range 65536).filter fun n => legalWord (BitVec.ofNat 16 n) = true).card = 259 ∧
  ((Finset.range 65536).filter fun n => legalWord (BitVec.ofNat 16 n) = false).card = 65277

/-- Section 6 of 95_test_vectors.md: single words, a check of the decoder by hand. -/
def Obligations.SampleWordsDecode : Prop :=
  decode 0b0000000100000000#16 = .command .ctxnew ∧
  decode 0b0000001000000000#16 = .command .touch ∧
  decode 0b0000001101100001#16 = .command (.absorb 0x61#8) ∧
  decode 0b0000001111111111#16 = .command (.absorb 0xFF#8) ∧
  decode 0b0000010000000000#16 = .command .final ∧
  decode 0x0000#16 = .illegal .reservedOpcode ∧ decode 0x8300#16 = .illegal .reservedOpcode ∧
  decode 0x0101#16 = .illegal .nonzeroImmediate ∧ decode 0x0280#16 = .illegal .nonzeroImmediate ∧
  decode 0x0401#16 = .illegal .nonzeroImmediate ∧ decode 0x0500#16 = .illegal .reservedOpcode

/-- R60, R80: a step with a waiting command word that decodes to `i` is `exec i` at that state, with the word taken off
the host's queue; and the table's word presented through `withFetchWord` is run so. -/
def Obligations.StepRunsTheDecodedCommand : Prop :=
  (∀ (s : State) (w : Cmd) (i : Instr) (rest : List HostEvent), s.inputs = .command w :: rest → decode w = .command i →
    step s = exec i { s with inputs := rest }) ∧
  (∀ (s : State) (w : Nat) (i : Instr), decodeTableWord 16 w = some i → step (s.withFetchWord 16 w) = exec i s)

/-- R191, R197: an illegal word, in every phase (Finalized included), answers ILLEGAL with digest 0 and changes no
register. -/
def Obligations.IllegalWordAnswersIllegalInEveryPhase : Prop :=
  ∀ (s : State) (w : Cmd) (rest : List HostEvent), s.inputs = .command w :: rest → legalWord w = false →
    step s = .next { s with inputs := rest, responses := s.responses ++ [⟨.illegal, 0#160⟩] }

/-- R203: an idle engine holds its state. -/
def Obligations.IdleEngineHoldsItsState : Prop := ∀ s : State, s.inputs = [] → step s = .next s

/-- R192, R195: no state stops the engine. -/
def Obligations.EveryStepAnswersANextState : Prop := ∀ s : State, ∃ t, step s = .next t

/-- R76: every accepted word, legal or not, gives exactly one response, after those given before; reset gives none. -/
def Obligations.OneResponsePerAcceptedWordInOrder : Prop :=
  ∀ (s t : State) (e : HostEvent) (rest : List HostEvent), s.inputs = e :: rest → step s = .next t →
    t.inputs = rest ∧
    ((∃ w, e = .command w) → ∃ r : Response, t.responses = s.responses ++ [r]) ∧
    ((¬ ∃ w, e = .command w) → t.responses = s.responses)

/-! ### The four commands: results and frames -/

/-- R160: CTXNEW, in every phase: H = IV, LEN = 0, FILL = 0, Empty, OK with digest 0; no byte of BUF is written, and none
keeps a defined value; the hidden registers stay. In phase Empty, under the invariant of R34, the context does not
change at all. -/
def Obligations.CtxnewStartsAFreshContext : Prop :=
  (∀ s : State, ∃ t, exec .ctxnew s = .next t ∧
    t.h = ⟨0x67452301#32, 0xEFCDAB89#32, 0x98BADCFE#32, 0x10325476#32, 0xC3D2E1F0#32⟩ ∧
    t.len = 0#64 ∧ t.fill = 0#6 ∧ t.phase = .empty ∧ t.responses = s.responses ++ [⟨.ok, 0#160⟩] ∧
    (∀ k : Nat, Memory.read? t.buf k = none) ∧ t.hidden = s.hidden ∧ t.inputs = s.inputs) ∧
  (∀ s : State, s.Inv → s.phase = .empty →
    exec .ctxnew s = .next { s with responses := s.responses ++ [⟨.ok, 0#160⟩] })

/-- R161: TOUCH on a context that is not Finalized changes PHASE alone and answers OK with digest 0: H, every byte of
BUF, FILL, LEN and the hidden registers stay. -/
def Obligations.TouchOnlyMakesTheContextAccumulating : Prop :=
  ∀ s : State, s.phase ≠ .finalized →
    exec .touch s = .next { s with phase := .accumulating, responses := s.responses ++ [⟨.ok, 0#160⟩] }

/-- R162: ABSORB below FILL 63, with its frame: the byte at index FILL is written, every other byte of BUF, H and the
hidden registers stay, LEN and FILL advance by one (LEN modulo 2^64), PHASE is Accumulating, OK with digest 0. -/
def Obligations.AbsorbStoresOneByte : Prop :=
  ∀ (s : State) (b : Byte), s.phase ≠ .finalized → s.fill ≠ 63#6 →
    ∃ t, exec (.absorb b) s = .next t ∧
      Memory.read? t.buf s.fill.toNat = some b ∧
      (∀ k : Nat, k ≠ s.fill.toNat → Memory.read? t.buf k = Memory.read? s.buf k) ∧
      t.len = s.len + 1#64 ∧ t.fill.toNat = s.fill.toNat + 1 ∧ t.phase = .accumulating ∧
      t.responses = s.responses ++ [⟨.ok, 0#160⟩] ∧
      t.h = s.h ∧ t.hidden = s.hidden ∧ t.inputs = s.inputs

/-- R162, R163: ABSORB at FILL 63 drains: H is COMPRESS of H and the 63 pending bytes followed by `b`, FILL is 0, LEN
advances modulo 2^64, PHASE is Accumulating, OK with digest 0; the 64 bytes are left without a defined value. -/
def Obligations.AbsorbOfTheLastByteDrains : Prop :=
  ∀ (s : State) (b : Byte), s.phase ≠ .finalized → s.fill = 63#6 →
    ∃ t, exec (.absorb b) s = .next t ∧
      t.h = compress s.h (s.pending ++ [b]) ∧ t.fill = 0#6 ∧ t.len = s.len + 1#64 ∧ t.phase = .accumulating ∧
      t.responses = s.responses ++ [⟨.ok, 0#160⟩] ∧ (∀ k : Nat, Memory.read? t.buf k = none) ∧ t.inputs = s.inputs

/-- R164: FINAL on a context that is not Finalized answers OK with SERIALIZE of the fold of COMPRESS over the blocks of
PAD, and PHASE is Finalized. Nothing is said of H, BUF, FILL, LEN and the hidden registers afterwards (R165). -/
def Obligations.FinalAnswersTheSerializedChain : Prop :=
  ∀ s : State, s.phase ≠ .finalized →
    ∃ t, exec .final s = .next t ∧ t.phase = .finalized ∧ t.inputs = s.inputs ∧
      t.responses = s.responses ++
        [⟨.ok, digestField (serialize ((pad s.fill s.len s.pending).foldl compress s.h))⟩]

/-- R190: TOUCH, ABSORB and FINAL answer MISUSE exactly when PHASE is Finalized, with digest 0 and no register changed;
CTXNEW never does. -/
def Obligations.MisuseExactlyOnAFinalizedContext : Prop :=
  (∀ (s : State) (i : Instr), i ≠ .ctxnew → s.phase = .finalized →
    exec i s = .next { s with responses := s.responses ++ [⟨.misuse, 0#160⟩] }) ∧
  (∀ (s t : State) (i : Instr) (d : BitVec 160), exec i s = .next t → t.responses = s.responses ++ [⟨.misuse, d⟩] →
    i ≠ .ctxnew ∧ s.phase = .finalized)

/-- R171: the table of the context state machine, whole: the status (or no response) and the next phase, for each phase
and each kind of event, and the digest of a FINAL that answers OK. -/
def Obligations.ContextStateMachineTable : Prop :=
  ∀ (s : State) (e : HostEvent), ∃ t, runEvent e s = .next t ∧
    t.phase = (stateMachineCell s.phase (columnOf e)).2 ∧
    t.responses.map Response.status =
      s.responses.map Response.status ++ (stateMachineCell s.phase (columnOf e)).1.toList ∧
    (columnOf e = .final → s.phase ≠ .finalized → t.responses = s.responses ++
      [⟨.ok, digestField (serialize ((pad s.fill s.len s.pending).foldl compress s.h))⟩])

/-- R194, R195: the length counter never makes ABSORB fail; at 2^64 - 1 it wraps to 0. -/
def Obligations.LengthWrapIsNoError : Prop :=
  ∀ (s : State) (b : Byte), s.phase ≠ .finalized →
    ∃ t, exec (.absorb b) s = .next t ∧ t.len.toNat = (s.len.toNat + 1) % 2 ^ 64 ∧
      t.responses = s.responses ++ [⟨.ok, 0#160⟩]

/-! ### Whole-machine rules -/

/-- R34(a) to (c) and the canonical form of BUF: every step keeps the invariant, from every state that meets it. -/
def Obligations.StepKeepsTheInvariants : Prop := ∀ s t : State, s.Inv → step s = .next t → t.Inv

/-- R34(d): what each event does to the message a context holds. -/
def Obligations.EventsKeepTheHeldMessage : Prop :=
  (∀ s t : State, exec .ctxnew s = .next t → t.HoldsMessage []) ∧
  (∀ s t : State, runEvent .reset s = .next t → t.HoldsMessage []) ∧
  (∀ (s t : State) (m : List Byte), s.HoldsMessage m → exec .touch s = .next t → t.HoldsMessage m) ∧
  (∀ (s t : State) (m : List Byte) (b : Byte), s.HoldsMessage m → exec (.absorb b) s = .next t →
    t.HoldsMessage (m ++ [b])) ∧
  (∀ (s t : State) (m : List Byte) (w : Cmd), s.HoldsMessage m → legalWord w = false →
    runEvent (.command w) s = .next t → t.HoldsMessage m)

/-- R164 with R34(d): FINAL on a context that holds `m` answers the digest of `m` as R168 defines it, of every length
(from 2^61 bytes on the length field has wrapped, R194, and the value is no longer the published digest). -/
def Obligations.FinalAnswersTheDigestOfTheHeldMessage : Prop :=
  ∀ (s : State) (m : List Byte), s.HoldsMessage m →
    ∃ t, exec .final s = .next t ∧ t.responses = s.responses ++ [⟨.ok, digestField (ripemd160 m)⟩]

/-- R21: H is written by reset and CTXNEW (to IV), by an ABSORB that drains (to COMPRESS), by FINAL, and by nothing
else. -/
def Obligations.ChainWrittenOnlyByItsWriters : Prop :=
  ∀ (s t : State) (e : HostEvent), runEvent e s = .next t → t.h ≠ s.h →
    (t.h = iv ∧ (e = .reset ∨ e = .command 0x0100#16 ∨ ∃ w, e = .commandCutByReset w)) ∨
    (∃ b, e = .command (0x0300#16 + b.setWidth 16) ∧ s.phase ≠ .finalized ∧ s.fill = 63#6 ∧
      t.h = compress s.h (s.pending ++ [b])) ∨
    (e = .command 0x0400#16 ∧ s.phase ≠ .finalized)

/-- R53, R162: the only byte of BUF that holds a defined value after an event and did not hold that value before is the
byte of an ABSORB, at index FILL. FINAL writes BUF too while it pads (R51); that it leaves no byte defined afterwards is
the model's rendering of R36 and R165 (log entry 2). -/
def Obligations.BufferBytesComeFromAbsorb : Prop :=
  ∀ (s t : State) (e : HostEvent) (k : Nat) (v : Byte), runEvent e s = .next t → Memory.read? t.buf k = some v →
    Memory.read? s.buf k = some v ∨
      (e = .command (0x0300#16 + v.setWidth 16) ∧ k = s.fill.toNat ∧ s.phase ≠ .finalized)

/-- R78: every response carries digest 0, but for the OK of a FINAL. -/
def Obligations.DigestLeavesOnlyInFinal : Prop :=
  ∀ (s t : State) (e : HostEvent), runEvent e s = .next t →
    t.responses = s.responses ∨ (∃ st, t.responses = s.responses ++ [⟨st, 0#160⟩]) ∨
      (e = .command 0x0400#16 ∧ s.phase ≠ .finalized ∧ t.phase = .finalized ∧
        ∃ d, t.responses = s.responses ++ [⟨.ok, d⟩])

/-- R199, R160: only CTXNEW and reset make a finalized context usable again. -/
def Obligations.OnlyCtxnewOrResetLeavesFinalized : Prop :=
  ∀ (s t : State) (e : HostEvent) (rest : List HostEvent), s.inputs = e :: rest → s.phase = .finalized →
    step s = .next t → t.phase ≠ .finalized →
    t.phase = .empty ∧ (e = .reset ∨ e = .command 0x0100#16 ∨ ∃ w, e = .commandCutByReset w)

/-- R33, R36, R38, R161: two engines that agree on what counts give the same responses for ever: a step of each gives the
same new responses and keeps them in agreement. So no response depends on hidden registers, on a finalized context's
registers, on undefined bytes of BUF, on a free value, or on Empty against Accumulating. -/
def Obligations.ResponsesIgnoreUnspecifiedState : Prop :=
  ∀ s t : State, s.SameFuture t →
    ∃ s' t' rs, step s = .next s' ∧ step t = .next t' ∧ s'.SameFuture t' ∧
      s'.responses = s.responses ++ rs ∧ t'.responses = t.responses ++ rs

/-- R160, R219: after CTXNEW, and after a reset, nothing of an engine's past shows in later responses. -/
def Obligations.AnAbandonedContextLeavesNoTrace : Prop :=
  ∀ s t : State, s.inputs = t.inputs →
    (∃ s' t', exec .ctxnew s = .next s' ∧ exec .ctxnew t = .next t' ∧ s'.SameFuture t') ∧
    (∃ s' t', runEvent .reset s = .next s' ∧ runEvent .reset t = .next t' ∧ s'.SameFuture t')

/-! ### The pseudo-commands -/

/-- R167: UPDATE with `n` bytes, whole. With `t = FILL + n`: PHASE, LEN, FILL, the drains on the 64-byte blocks of the
pending bytes followed by the input, the bytes left pending, and OK for every command; on a Finalized context MISUSE for
every command and nothing changed. -/
def Obligations.UpdateAbsorbsItsBytes : Prop :=
  (∀ (s : State) (bs : List Byte), s.phase ≠ .finalized →
    ∃ t, s.play (asEvents (updateCommands bs)) = .next t ∧ t.phase = .accumulating ∧
      t.len = s.len + BitVec.ofNat 64 bs.length ∧
      t.fill.toNat = (s.fill.toNat + bs.length) % 64 ∧
      t.h = compressAll s.h (fullBlocks (s.pending ++ bs)) ∧
      t.pending = leftover (s.pending ++ bs) ∧
      t.responses = s.responses ++ List.replicate (updateCommands bs).length ⟨.ok, 0#160⟩ ∧
      t.inputs = s.inputs) ∧
  (∀ (s : State) (bs : List Byte), s.phase = .finalized →
    s.play (asEvents (updateCommands bs)) = .next
      { s with responses := s.responses ++ List.replicate (updateCommands bs).length ⟨.misuse, 0#160⟩ })

/-- R168, R83: DIGEST, from every state and phase, answers OK for every command and the digest of the message in the
response of its FINAL, for a message of fewer than 2^61 bytes. -/
def Obligations.DigestAnswersTheDigestOfTheMessage : Prop :=
  ∀ (s : State) (m : List Byte), m.length < 2 ^ 61 →
    ∃ t, s.play (asEvents (digestCommands m)) = .next t ∧ t.inputs = s.inputs ∧
      t.responses = s.responses ++ List.replicate (1 + (updateCommands m).length) ⟨.ok, 0#160⟩ ++
        [⟨.ok, digestField (ripemd160 m)⟩]

/-- R169: streaming equivalence. However a message is cut into UPDATEs, chunks of no byte included, FINAL answers what
the one-shot DIGEST answers. -/
def Obligations.StreamingEqualsOneShot : Prop :=
  ∀ (s u : State) (chunks : List (List Byte)),
    ∃ t v r, s.play (asEvents (.ctxnew :: (chunks.flatMap updateCommands ++ [.final]))) = .next t ∧
      u.play (asEvents (digestCommands chunks.flatten)) = .next v ∧
      t.responses.getLast? = some r ∧ v.responses.getLast? = some r ∧ r.status = .ok

/-! ### Padding -/

/-- R91: PAD, by cases on FILL, and every block it returns has 64 bytes. -/
def Obligations.PadBlocksAsDefined : Prop :=
  ∀ (fill : BitVec 6) (len : BitVec 64) (pend : List Byte), pend.length = fill.toNat →
    (fill.toNat ≤ 55 → pad fill len pend =
      [pend ++ 0x80#8 :: List.replicate (55 - fill.toNat) 0x00#8 ++ le64 (len * 8#64)]) ∧
    (56 ≤ fill.toNat → pad fill len pend =
      [pend ++ 0x80#8 :: List.replicate (63 - fill.toNat) 0x00#8, List.replicate 56 0x00#8 ++ le64 (len * 8#64)]) ∧
    ∀ p ∈ pad fill len pend, p.length = 64

/-- R94: the length field is `(len * 8) mod 2^64`: bits 63:3 are `len[60:0]`, bits 2:0 are 0, and it stands least
significant byte first at indices 56..63 of the last block; the marker byte after the pending bytes is `0x80`. -/
def Obligations.LengthFieldIsEightTimesLen : Prop :=
  ∀ (fill : BitVec 6) (len : BitVec 64) (pend : List Byte), pend.length = fill.toNat →
    (bitLength len).toNat = len.toNat * 8 % 2 ^ 64 ∧
    (bitLength len).extractLsb' 3 61 = len.extractLsb' 0 61 ∧ (bitLength len).extractLsb' 0 3 = 0#3 ∧
    (∀ m : Fin 8, ∀ p, (pad fill len pend).getLast? = some p →
      p[56 + m.val]? = some ((bitLength len).extractLsb' (8 * m.val) 8)) ∧
    ∀ p, (pad fill len pend).head? = some p → p[fill.toNat]? = some 0x80#8

/-- R97: the padded stream of a message of fewer than 2^61 bytes: its length, its shape, and the number of PAD blocks. -/
def Obligations.PaddedStreamShape : Prop :=
  ∀ m : List Byte, m.length < 2 ^ 61 →
    let blocks := pad (BitVec.ofNat 6 m.length) (BitVec.ofNat 64 m.length) (leftover m)
    let stream := (fullBlocks m).flatten ++ blocks.flatten
    (m.length % 64 ≤ 55 → stream.length = 64 * (m.length / 64 + 1) ∧ blocks.length = 1) ∧
    (56 ≤ m.length % 64 → stream.length = 64 * (m.length / 64 + 2) ∧ blocks.length = 2) ∧
    ∃ z, stream = m ++ 0x80#8 :: (List.replicate z 0x00#8 ++ le64 (BitVec.ofNat 64 (8 * m.length)))

/-- R95: the in-place form of the padding on BUF gives the same H (and the same hidden registers) as the loop over PAD's
blocks that FINAL runs, from every state: no undefined byte is read. -/
def Obligations.PadInPlaceEqualsPadBlocks : Prop :=
  ∀ s : State, s.padInPlace.h = (s.compressBlocks (pad s.fill s.len s.pending)).h ∧
    s.padInPlace.hidden = (s.compressBlocks (pad s.fill s.len s.pending)).hidden

/-! ### The compression engine -/

/-- R131: the five functions act bit by bit, with the rule's truth tables; row `4x + 2y + z` of a table is the output for
the bits (x, y, z). And which function each stage of each line uses. -/
def Obligations.BooleanFunctionTruthTables : Prop :=
  (∀ g : Fin 5, (fselL g).val = g.val ∧ (fselR g).val = 4 - g.val) ∧
  ∀ (x y z : Word) (i : Fin 32),
    let row := 4 * (x.getLsbD i.val).toNat + 2 * (y.getLsbD i.val).toNat + (z.getLsbD i.val).toNat
    [false, true, true, false, true, false, false, true][row]? = some ((boolF 0 x y z).getLsbD i.val) ∧
    [false, true, false, true, false, false, true, true][row]? = some ((boolF 1 x y z).getLsbD i.val) ∧
    [true, false, false, true, true, false, true, false][row]? = some ((boolF 2 x y z).getLsbD i.val) ∧
    [false, false, true, false, false, true, true, true][row]? = some ((boolF 3 x y z).getLsbD i.val) ∧
    [true, false, true, true, false, true, false, false][row]? = some ((boolF 4 x y z).getLsbD i.val)

/-- R8: `rol(a, n)` for 1 <= n <= 31 is the rotation of 32 bits to the left by n: bit i goes to bit (i + n) mod 32. -/
def Obligations.RolRotatesTheBits : Prop :=
  ∀ (a : Word) (n : Nat), 1 ≤ n → n ≤ 31 →
    (rol a n).toNat = a.toNat * 2 ^ n % 2 ^ 32 + a.toNat / 2 ^ (32 - n) ∧
    ∀ i : Fin 32, (rol a n).getLsbD ((i.val + n) % 32) = a.getLsbD i.val

/-- R135, R136, R137: one step of the word mixer, in the rule's formula and in data-path order, with the sum formed in
any order. -/
def Obligations.StepFormulaAndDataPathAgree : Prop :=
  ∀ (a b c d e x k : Word) (f : Fin 5) (s : Nat),
    mixStep ⟨a, b, c, d, e⟩ f x k s = ⟨e, rol (a + boolF f b c d + x + k) s + e, b, rol c 10, d⟩ ∧
    mixStep ⟨a, b, c, d, e⟩ f x k s = ⟨e, e + rol (k + (x + (boolF f b c d + a))) s, b, rol c 10, d⟩

/-- R138: the operands each mixer is given at step j, with `g = j div 16`. -/
def Obligations.LineOperandsFollowTheStage : Prop :=
  ∀ (x : Fin 16 → Word) (j : Fin 80) (g : Fin 5), g.val = j.val / 16 →
    ((leftOperands x j).k.val = g.val ∧ (leftOperands x j).x = x (rl j) ∧ (leftOperands x j).c = kl g ∧
      (leftOperands x j).s = sl j) ∧
    ((rightOperands x j).k.val = 4 - g.val ∧ (rightOperands x j).x = x (rr j) ∧ (rightOperands x j).c = kr g ∧
      (rightOperands x j).s = sr j)

/-- R139, R140, R141, R145: the scheduler, which drives both mixers from one counter J on the hidden registers, computes
the two lines as independent folds, whatever the hidden registers held, and stops with J = 79; more passes than 80 would
change nothing. -/
def Obligations.SchedulerComputesTheTwoLines : Prop :=
  ∀ (h : Chain) (x : Fin 16 → Word) (d : Hidden),
    (d.schedule h x).left = lineL h x ∧ (d.schedule h x).right = lineR h x ∧ (d.schedule h x).j.val = 79 ∧
    ∀ n : Nat, (d.seed h).loop x (80 + n) = d.schedule h x

/-- R143, R146: one COMPRESS on the machine writes H with the pure function's result and the hidden registers with the
scheduler's, and leaves every other field of the state alone: BUF, FILL, LEN, PHASE, and the model's own three. -/
def Obligations.MachineCompressIsThePureFunction : Prop :=
  ∀ (s : State) (block : List Byte),
    s.compressBlock block =
      { s with h := compress s.h block, hidden := s.hidden.schedule s.h (wordView block) }

/-- R142: COMBINE, word by word and in index form: `h'[i] = h[(i+1) mod 5] + wL[(i+2) mod 5] + wR[(i+3) mod 5]`. -/
def Obligations.CombinePermutesTheWords : Prop :=
  ∀ (h : Chain) (l r : Working),
    (combine h l r).words = [h.h1 + l.c + r.d, h.h2 + l.d + r.e, h.h3 + l.e + r.a, h.h4 + l.a + r.b, h.h0 + l.b + r.c] ∧
    ∀ i : Fin 5, (combine h l r).get i = h.get (i + 1) + l.get (i + 2) + r.get (i + 3)

/-- R119: the self-checks of the constant ROM's tables, (a) to (e). -/
def Obligations.ConstantRomSelfChecks : Prop :=
  let rho : Fin 16 → Fin 16 := fun i => [7, 4, 13, 1, 10, 6, 15, 3, 12, 0, 9, 5, 2, 14, 11, 8].getD i.val 0
  let amounts : List (List Nat) :=
    [[11, 14, 15, 12, 5, 8, 7, 9, 11, 13, 14, 15, 6, 7, 9, 8], [12, 13, 11, 15, 6, 9, 9, 7, 12, 15, 11, 13, 7, 8, 7, 7],
      [13, 15, 14, 11, 7, 7, 6, 8, 13, 14, 13, 12, 5, 5, 6, 9], [14, 11, 12, 14, 8, 6, 5, 5, 15, 12, 15, 14, 9, 9, 8, 6],
      [15, 12, 13, 13, 9, 5, 8, 6, 14, 11, 12, 11, 8, 6, 5, 5]]
  let at_ : Fin 5 → Fin 16 → Fin 80 := fun g c => ⟨16 * g.val + c.val, by omega⟩
  (∀ (g : Fin 5) (w : Fin 16), ∃! c : Fin 16, rl (at_ g c) = w) ∧
  (∀ (g : Fin 5) (w : Fin 16), ∃! c : Fin 16, rr (at_ g c) = w) ∧
  (∀ g : Fin 5, ((List.finRange 16).map fun c => (rl (at_ g c)).val).sum = 120 ∧
    ((List.finRange 16).map fun c => (rr (at_ g c)).val).sum = 120) ∧
  ((List.finRange 80).map fun j => (rl j).val).sum = 600 ∧ ((List.finRange 80).map fun j => (rr j).val).sum = 600 ∧
  (∀ (g : Fin 5) (c : Fin 16), rl (at_ g c) = rho^[g.val] c ∧ rr (at_ g c) = rho^[g.val] (9 * c + 5)) ∧
  (∀ j : Fin 80, 5 ≤ sl j ∧ sl j ≤ 15 ∧ 5 ≤ sr j ∧ sr j ≤ 15) ∧
  (∀ g : Fin 5, ((List.finRange 16).map fun c => sl (at_ g c)).sum = [164, 162, 158, 163, 153].getD g.val 0 ∧
    ((List.finRange 16).map fun c => sr (at_ g c)).sum = [164, 162, 158, 163, 153].getD g.val 0) ∧
  ((List.finRange 80).map sl).sum = 800 ∧ ((List.finRange 80).map sr).sum = 800 ∧
  (∀ (g : Fin 5) (c c' : Fin 16), rl (at_ g c) = rr (at_ g c') → sl (at_ g c) = sr (at_ g c')) ∧
  (∀ (g : Fin 5) (c : Fin 16), (amounts.getD g.val []).getD (rl (at_ g c)).val 0 = sl (at_ g c)) ∧
  (∀ g : Fin 5, (kl g).toNat ^ 2 ≤ 2 ^ 60 * [0, 2, 3, 5, 7].getD g.val 0 ∧
    2 ^ 60 * [0, 2, 3, 5, 7].getD g.val 0 < ((kl g).toNat + 1) ^ 2) ∧
  (∀ g : Fin 5, (kr g).toNat ^ 3 ≤ 2 ^ 90 * [2, 3, 5, 7, 0].getD g.val 0 ∧
    2 ^ 90 * [2, 3, 5, 7, 0].getD g.val 0 < ((kr g).toNat + 1) ^ 3)

/-- R147: the worked example, the single block of the empty message. -/
def Obligations.CompressOfTheEmptyMessageBlock : Prop :=
  let block : List Byte := 0x80#8 :: List.replicate 63 0x00#8
  let x := wordView block
  let seed : Working := ⟨iv.h0, iv.h1, iv.h2, iv.h3, iv.h4⟩
  x 0 = 0x00000080#32 ∧ (∀ i : Fin 16, i ≠ 0 → x i = 0#32) ∧
  (leftOperands x 0).run seed = ⟨0xC3D2E1F0#32, 0x1606F864#32, 0xEFCDAB89#32, 0xEB73FA62#32, 0x10325476#32⟩ ∧
  (rightOperands x 0).run seed = ⟨0xC3D2E1F0#32, 0xDDD63FB8#32, 0xEFCDAB89#32, 0xEB73FA62#32, 0x10325476#32⟩ ∧
  lineL iv x = ⟨0x594637A7#32, 0x215D97B3#32, 0xEBA027EB#32, 0xB99CDC7A#32, 0xEC4DCDFF#32⟩ ∧
  lineR iv x = ⟨0x9A8805EC#32, 0x2BDCCEE7#32, 0xA8EA6AFE#32, 0xCA173E28#32, 0x02A5304D#32⟩ ∧
  compress iv block = ⟨0xA585119C#32, 0x54FCE9C5#32, 0x97082861#32, 0x48F5E87E#32, 0x318D25B2#32⟩ ∧
  serialize (compress iv block) = [0x9c#8, 0x11#8, 0x85#8, 0xa5#8, 0xc5#8, 0xe9#8, 0xfc#8, 0x54#8, 0x61#8, 0x28#8,
    0x08#8, 0x97#8, 0x7e#8, 0xe8#8, 0xf5#8, 0x48#8, 0xb2#8, 0x25#8, 0x8d#8, 0x31#8]

/-! ### Byte order and the ports -/

/-- R9: LE32 and LE64 list the bytes least significant first, and W32 is LE32's inverse. -/
def Obligations.ByteOrderFunctionsAreInverse : Prop :=
  (∀ w : Word, ∀ m : Fin 4, (le32 w)[m.val]? = some (w.extractLsb' (8 * m.val) 8)) ∧
  (∀ v : BitVec 64, ∀ m : Fin 8, (le64 v)[m.val]? = some (v.extractLsb' (8 * m.val) 8)) ∧
  (∀ w : Word, ∃ b0 b1 b2 b3, le32 w = [b0, b1, b2, b3] ∧ w32 b0 b1 b2 b3 = w) ∧
  (∀ b0 b1 b2 b3 : Byte, le32 (w32 b0 b1 b2 b3) = [b0, b1, b2, b3])

/-- R54: the word view of BUF: `X[i] = BUF[4i] + 2^8 * BUF[4i+1] + 2^16 * BUF[4i+2] + 2^24 * BUF[4i+3]`, with no
overflow. -/
def Obligations.WordViewIsLittleEndian : Prop :=
  ∀ (s : State) (i : Fin 16),
    (wordView (s.memRead 0 64) i).toNat = (s.bufByte (4 * i.val)).toNat + 2 ^ 8 * (s.bufByte (4 * i.val + 1)).toNat +
      2 ^ 16 * (s.bufByte (4 * i.val + 2)).toNat + 2 ^ 24 * (s.bufByte (4 * i.val + 3)).toNat

/-- R166: SERIALIZE: 20 bytes, `DG[4i + m] = h[i][8m+7 : 8m]`. -/
def Obligations.SerializeIsLittleEndian : Prop :=
  ∀ h : Chain, (serialize h).length = 20 ∧
    ∀ (i : Fin 5) (m : Fin 4), (serialize h)[4 * i.val + m.val]? = some ((h.get i).extractLsb' (8 * m.val) 8)

/-- R78: digest byte k is `rsp_digest[8k+7 : 8k]`, and `rsp_digest[32i+31 : 32i]` is `H[i]`. -/
def Obligations.DigestPortCarriesTheChain : Prop :=
  ∀ h : Chain, (∀ k : Fin 20, (serialize h)[k.val]? = some ((digestField (serialize h)).extractLsb' (8 * k.val) 8)) ∧
    ∀ i : Fin 5, (digestField (serialize h)).extractLsb' (32 * i.val) 32 = h.get i

/-- R27, R77: the codes of PHASE and of the response status are distinct, and 3 is neither's. -/
def Obligations.PhaseAndStatusCodes : Prop :=
  (Phase.code .empty = 0#2 ∧ Phase.code .accumulating = 1#2 ∧ Phase.code .finalized = 2#2) ∧
  (Status.code .ok = 0#2 ∧ Status.code .misuse = 1#2 ∧ Status.code .illegal = 2#2) ∧
  (∀ p q : Phase, p.code = q.code → p = q) ∧ (∀ p q : Status, p.code = q.code → p = q) ∧
  (∀ p : Phase, p.code ≠ 3#2) ∧ (∀ p : Status, p.code ≠ 3#2)

/-- R79, R70: without reset, the words accepted at the ports are the commands the engine takes, none dropped and none
reordered, whatever the handshake signals do. -/
def Obligations.PortsNeverDropOrReorder : Prop :=
  ∀ ps : List PortSample, (∀ p ∈ ps, p.rst = false) →
    eventsOfSamples [] ps = ((ps.filter PortSample.accepts).map PortSample.cmd).map .command

/-- R70, R212, R213: cycles without reset, then one with `rst` asserted, from any list of words still open. The accepted
words are the open ones, then those the cycles accept, in order; the cycle of the reset accepts none. The first `n` of
them are answered, one for each delivered response at most, and come out as commands; only the rest are cut. Where no
response is delivered without an open word, `n` is the number of delivered responses. -/
def Obligations.PortsCutOpenCommandsAtReset : Prop :=
  ∀ (opened : List Cmd) (ps qs : List PortSample) (p : PortSample), (∀ q ∈ ps, q.rst = false) → p.rst = true →
    let words := opened ++ (ps.filter PortSample.accepts).map PortSample.cmd
    let answered (n : Nat) : List HostEvent :=
      (words.take n).map .command ++ (words.drop n).map .commandCutByReset ++ .reset :: eventsOfSamples [] qs
    (∃ n, n ≤ (ps.filter PortSample.delivers).length ∧ eventsOfSamples opened (ps ++ p :: qs) = answered n) ∧
    ((∀ k ≤ ps.length, ((ps.take k).filter PortSample.delivers).length ≤
        opened.length + ((ps.take k).filter PortSample.accepts).length) →
      eventsOfSamples opened (ps ++ p :: qs) = answered (ps.filter PortSample.delivers).length)
end

