-- ==== Sys2Proof/Laws/State.lean ====
section
/-! SUPPORT. What each update of the state does to each field, true by `rfl` once the state is taken apart. `simp` uses
these, so no later proof unfolds a record update; taking the state apart first keeps them out of `dsimp`, so that the
kernel never has to compare two whole states. -/

namespace Sys2Proof.Machine

/-! ### respond -/

@[simp] theorem State.respond_h (s : State) (st : Status) (d : BitVec 160) : (s.respond st d).h = s.h := by cases s; rfl
@[simp] theorem State.respond_buf (s : State) (st : Status) (d : BitVec 160) : (s.respond st d).buf = s.buf := by cases s; rfl
@[simp] theorem State.respond_fill (s : State) (st : Status) (d : BitVec 160) : (s.respond st d).fill = s.fill := by cases s; rfl
@[simp] theorem State.respond_len (s : State) (st : Status) (d : BitVec 160) : (s.respond st d).len = s.len := by cases s; rfl
@[simp] theorem State.respond_phase (s : State) (st : Status) (d : BitVec 160) : (s.respond st d).phase = s.phase := by cases s; rfl
@[simp] theorem State.respond_hidden (s : State) (st : Status) (d : BitVec 160) : (s.respond st d).hidden = s.hidden := by cases s; rfl
@[simp] theorem State.respond_inputs (s : State) (st : Status) (d : BitVec 160) : (s.respond st d).inputs = s.inputs := by cases s; rfl
@[simp] theorem State.respond_responses (s : State) (st : Status) (d : BitVec 160) : (s.respond st d).responses = s.responses ++ [⟨st, d⟩] := by cases s; rfl
@[simp] theorem State.respond_draws (s : State) (st : Status) (d : BitVec 160) : (s.respond st d).draws = s.draws := by cases s; rfl

/-! ### raise -/

@[simp] theorem State.raise_h (s : State) (st : Status) : (s.raise st).h = s.h := by cases s; rfl
@[simp] theorem State.raise_buf (s : State) (st : Status) : (s.raise st).buf = s.buf := by cases s; rfl
@[simp] theorem State.raise_fill (s : State) (st : Status) : (s.raise st).fill = s.fill := by cases s; rfl
@[simp] theorem State.raise_len (s : State) (st : Status) : (s.raise st).len = s.len := by cases s; rfl
@[simp] theorem State.raise_phase (s : State) (st : Status) : (s.raise st).phase = s.phase := by cases s; rfl
@[simp] theorem State.raise_hidden (s : State) (st : Status) : (s.raise st).hidden = s.hidden := by cases s; rfl
@[simp] theorem State.raise_inputs (s : State) (st : Status) : (s.raise st).inputs = s.inputs := by cases s; rfl
@[simp] theorem State.raise_responses (s : State) (st : Status) : (s.raise st).responses = s.responses ++ [⟨st, 0#160⟩] := by cases s; rfl
@[simp] theorem State.raise_draws (s : State) (st : Status) : (s.raise st).draws = s.draws := by cases s; rfl

/-! ### memWrite -/

@[simp] theorem State.memWrite_h (s : State) (k : Nat) (v : List Byte) : (s.memWrite k v).h = s.h := by cases s; rfl
@[simp] theorem State.memWrite_buf (s : State) (k : Nat) (v : List Byte) : (s.memWrite k v).buf = Memory.writeBytes s.buf k v := by cases s; rfl
@[simp] theorem State.memWrite_fill (s : State) (k : Nat) (v : List Byte) : (s.memWrite k v).fill = s.fill := by cases s; rfl
@[simp] theorem State.memWrite_len (s : State) (k : Nat) (v : List Byte) : (s.memWrite k v).len = s.len := by cases s; rfl
@[simp] theorem State.memWrite_phase (s : State) (k : Nat) (v : List Byte) : (s.memWrite k v).phase = s.phase := by cases s; rfl
@[simp] theorem State.memWrite_hidden (s : State) (k : Nat) (v : List Byte) : (s.memWrite k v).hidden = s.hidden := by cases s; rfl
@[simp] theorem State.memWrite_inputs (s : State) (k : Nat) (v : List Byte) : (s.memWrite k v).inputs = s.inputs := by cases s; rfl
@[simp] theorem State.memWrite_responses (s : State) (k : Nat) (v : List Byte) : (s.memWrite k v).responses = s.responses := by cases s; rfl
@[simp] theorem State.memWrite_draws (s : State) (k : Nat) (v : List Byte) : (s.memWrite k v).draws = s.draws := by cases s; rfl

/-! ### forgetHidden -/

@[simp] theorem State.forgetHidden_h (s : State) : (s.forgetHidden).h = s.h := by cases s; rfl
@[simp] theorem State.forgetHidden_buf (s : State) : (s.forgetHidden).buf = s.buf := by cases s; rfl
@[simp] theorem State.forgetHidden_fill (s : State) : (s.forgetHidden).fill = s.fill := by cases s; rfl
@[simp] theorem State.forgetHidden_len (s : State) : (s.forgetHidden).len = s.len := by cases s; rfl
@[simp] theorem State.forgetHidden_phase (s : State) : (s.forgetHidden).phase = s.phase := by cases s; rfl
@[simp] theorem State.forgetHidden_hidden (s : State) : (s.forgetHidden).hidden = freeHidden s.draws := by cases s; rfl
@[simp] theorem State.forgetHidden_inputs (s : State) : (s.forgetHidden).inputs = s.inputs := by cases s; rfl
@[simp] theorem State.forgetHidden_responses (s : State) : (s.forgetHidden).responses = s.responses := by cases s; rfl
@[simp] theorem State.forgetHidden_draws (s : State) : (s.forgetHidden).draws = s.draws + 1 := by cases s; rfl

/-! ### forgetBuffer -/

@[simp] theorem State.forgetBuffer_h (s : State) : (s.forgetBuffer).h = s.h := by cases s; rfl
@[simp] theorem State.forgetBuffer_buf (s : State) : (s.forgetBuffer).buf = [] := by cases s; rfl
@[simp] theorem State.forgetBuffer_fill (s : State) : (s.forgetBuffer).fill = s.fill := by cases s; rfl
@[simp] theorem State.forgetBuffer_len (s : State) : (s.forgetBuffer).len = s.len := by cases s; rfl
@[simp] theorem State.forgetBuffer_phase (s : State) : (s.forgetBuffer).phase = s.phase := by cases s; rfl
@[simp] theorem State.forgetBuffer_hidden (s : State) : (s.forgetBuffer).hidden = s.hidden := by cases s; rfl
@[simp] theorem State.forgetBuffer_inputs (s : State) : (s.forgetBuffer).inputs = s.inputs := by cases s; rfl
@[simp] theorem State.forgetBuffer_responses (s : State) : (s.forgetBuffer).responses = s.responses := by cases s; rfl
@[simp] theorem State.forgetBuffer_draws (s : State) : (s.forgetBuffer).draws = s.draws := by cases s; rfl

/-! ### forgetContext -/

@[simp] theorem State.forgetContext_h (s : State) : (s.forgetContext).h = freeChain s.draws := by cases s; rfl
@[simp] theorem State.forgetContext_buf (s : State) : (s.forgetContext).buf = [] := by cases s; rfl
@[simp] theorem State.forgetContext_fill (s : State) : (s.forgetContext).fill = Config.freeFill s.draws := by cases s; rfl
@[simp] theorem State.forgetContext_len (s : State) : (s.forgetContext).len = Config.freeLen s.draws := by cases s; rfl
@[simp] theorem State.forgetContext_phase (s : State) : (s.forgetContext).phase = s.phase := by cases s; rfl
@[simp] theorem State.forgetContext_hidden (s : State) : (s.forgetContext).hidden = freeHidden s.draws := by cases s; rfl
@[simp] theorem State.forgetContext_inputs (s : State) : (s.forgetContext).inputs = s.inputs := by cases s; rfl
@[simp] theorem State.forgetContext_responses (s : State) : (s.forgetContext).responses = s.responses := by cases s; rfl
@[simp] theorem State.forgetContext_draws (s : State) : (s.forgetContext).draws = s.draws + 1 := by cases s; rfl

/-! ### freshContext -/

@[simp] theorem State.freshContext_h (s : State) : (s.freshContext).h = iv := by cases s; rfl
@[simp] theorem State.freshContext_buf (s : State) : (s.freshContext).buf = [] := by cases s; rfl
@[simp] theorem State.freshContext_fill (s : State) : (s.freshContext).fill = 0#6 := by cases s; rfl
@[simp] theorem State.freshContext_len (s : State) : (s.freshContext).len = 0#64 := by cases s; rfl
@[simp] theorem State.freshContext_phase (s : State) : (s.freshContext).phase = .empty := by cases s; rfl
@[simp] theorem State.freshContext_hidden (s : State) : (s.freshContext).hidden = s.hidden := by cases s; rfl
@[simp] theorem State.freshContext_inputs (s : State) : (s.freshContext).inputs = s.inputs := by cases s; rfl
@[simp] theorem State.freshContext_responses (s : State) : (s.freshContext).responses = s.responses := by cases s; rfl
@[simp] theorem State.freshContext_draws (s : State) : (s.freshContext).draws = if s.buf.isEmpty then s.draws else s.draws + 1 := by
  cases s; rfl

/-! ### compressBlock -/

theorem State.compressBlock_h (s : State) (b : List Byte) : (s.compressBlock b).h = combine s.h (s.hidden.schedule s.h (wordView b)).left (s.hidden.schedule s.h (wordView b)).right := by cases s; rfl
@[simp] theorem State.compressBlock_buf (s : State) (b : List Byte) : (s.compressBlock b).buf = s.buf := by cases s; rfl
@[simp] theorem State.compressBlock_fill (s : State) (b : List Byte) : (s.compressBlock b).fill = s.fill := by cases s; rfl
@[simp] theorem State.compressBlock_len (s : State) (b : List Byte) : (s.compressBlock b).len = s.len := by cases s; rfl
@[simp] theorem State.compressBlock_phase (s : State) (b : List Byte) : (s.compressBlock b).phase = s.phase := by cases s; rfl
theorem State.compressBlock_hidden (s : State) (b : List Byte) : (s.compressBlock b).hidden = s.hidden.schedule s.h (wordView b) := by cases s; rfl
@[simp] theorem State.compressBlock_inputs (s : State) (b : List Byte) : (s.compressBlock b).inputs = s.inputs := by cases s; rfl
@[simp] theorem State.compressBlock_responses (s : State) (b : List Byte) : (s.compressBlock b).responses = s.responses := by cases s; rfl
@[simp] theorem State.compressBlock_draws (s : State) (b : List Byte) : (s.compressBlock b).draws = s.draws := by cases s; rfl

/-! ### drain -/

@[simp] theorem State.drain_h (s : State) : (s.drain).h = (s.compressBlock (s.memRead 0 64)).h := by cases s; rfl
@[simp] theorem State.drain_buf (s : State) : (s.drain).buf = [] := by cases s; rfl
@[simp] theorem State.drain_fill (s : State) : (s.drain).fill = 0#6 := by cases s; rfl
@[simp] theorem State.drain_len (s : State) : (s.drain).len = s.len := by cases s; rfl
@[simp] theorem State.drain_phase (s : State) : (s.drain).phase = s.phase := by cases s; rfl
@[simp] theorem State.drain_hidden (s : State) : (s.drain).hidden = freeHidden s.draws := by cases s; rfl
@[simp] theorem State.drain_inputs (s : State) : (s.drain).inputs = s.inputs := by cases s; rfl
@[simp] theorem State.drain_responses (s : State) : (s.drain).responses = s.responses := by cases s; rfl
@[simp] theorem State.drain_draws (s : State) : (s.drain).draws = s.draws + 1 := by cases s; rfl

/-! ### assertReset -/

@[simp] theorem State.assertReset_h (s : State) : (s.assertReset).h = iv := by cases s; rfl
@[simp] theorem State.assertReset_buf (s : State) : (s.assertReset).buf = [] := by cases s; rfl
@[simp] theorem State.assertReset_fill (s : State) : (s.assertReset).fill = 0#6 := by cases s; rfl
@[simp] theorem State.assertReset_len (s : State) : (s.assertReset).len = 0#64 := by cases s; rfl
@[simp] theorem State.assertReset_phase (s : State) : (s.assertReset).phase = .empty := by cases s; rfl
@[simp] theorem State.assertReset_hidden (s : State) : (s.assertReset).hidden = freeHidden s.freshContext.draws := by cases s; rfl
@[simp] theorem State.assertReset_inputs (s : State) : (s.assertReset).inputs = s.inputs := by cases s; rfl
@[simp] theorem State.assertReset_responses (s : State) : (s.assertReset).responses = s.responses := by cases s; rfl
@[simp] theorem State.assertReset_draws (s : State) : (s.assertReset).draws = s.freshContext.draws + 1 := by cases s; rfl

/-! ### takeByte -/

@[simp] theorem State.takeByte_h (s : State) (b : Byte) : (s.takeByte b).h = s.h := by cases s; rfl
@[simp] theorem State.takeByte_buf (s : State) (b : Byte) : (s.takeByte b).buf = Memory.writeBytes s.buf s.fill.toNat [b] := by cases s; rfl
@[simp] theorem State.takeByte_fill (s : State) (b : Byte) : (s.takeByte b).fill = s.fill := by cases s; rfl
@[simp] theorem State.takeByte_len (s : State) (b : Byte) : (s.takeByte b).len = s.len + 1#64 := by cases s; rfl
@[simp] theorem State.takeByte_phase (s : State) (b : Byte) : (s.takeByte b).phase = s.phase := by cases s; rfl
@[simp] theorem State.takeByte_hidden (s : State) (b : Byte) : (s.takeByte b).hidden = s.hidden := by cases s; rfl
@[simp] theorem State.takeByte_inputs (s : State) (b : Byte) : (s.takeByte b).inputs = s.inputs := by cases s; rfl
@[simp] theorem State.takeByte_responses (s : State) (b : Byte) : (s.takeByte b).responses = s.responses := by cases s; rfl
@[simp] theorem State.takeByte_draws (s : State) (b : Byte) : (s.takeByte b).draws = s.draws := by cases s; rfl

/-! ### presentFirst -/

@[simp] theorem State.presentFirst_h (s : State) (e : HostEvent) : (s.presentFirst e).h = s.h := by cases s; rfl
@[simp] theorem State.presentFirst_buf (s : State) (e : HostEvent) : (s.presentFirst e).buf = s.buf := by cases s; rfl
@[simp] theorem State.presentFirst_fill (s : State) (e : HostEvent) : (s.presentFirst e).fill = s.fill := by cases s; rfl
@[simp] theorem State.presentFirst_len (s : State) (e : HostEvent) : (s.presentFirst e).len = s.len := by cases s; rfl
@[simp] theorem State.presentFirst_phase (s : State) (e : HostEvent) : (s.presentFirst e).phase = s.phase := by cases s; rfl
@[simp] theorem State.presentFirst_hidden (s : State) (e : HostEvent) : (s.presentFirst e).hidden = s.hidden := by cases s; rfl
@[simp] theorem State.presentFirst_inputs (s : State) (e : HostEvent) : (s.presentFirst e).inputs = e :: s.inputs := by cases s; rfl
@[simp] theorem State.presentFirst_responses (s : State) (e : HostEvent) : (s.presentFirst e).responses = s.responses := by cases s; rfl
@[simp] theorem State.presentFirst_draws (s : State) (e : HostEvent) : (s.presentFirst e).draws = s.draws := by cases s; rfl

/-! ### The phase check -/

@[simp] theorem State.isFinalized_iff (s : State) : s.isFinalized = true ↔ s.phase = .finalized := by
  simp [State.isFinalized]

@[simp] theorem State.isFinalized_eq_false_iff (s : State) : s.isFinalized = false ↔ s.phase ≠ .finalized := by
  simp [State.isFinalized]

/-! ### Reset -/

@[simp] theorem State.reset_phase : State.reset.phase = .empty := rfl
@[simp] theorem State.reset_buf : State.reset.buf = [] := rfl
@[simp] theorem State.reset_responses : State.reset.responses = [] := rfl
@[simp] theorem State.reset_inputs : State.reset.inputs = [] := rfl

end Sys2Proof.Machine
end

