-- ==== Sys2Proof/Laws/Memory.lean ====
section
/-! SUPPORT. The block buffer: a read after a write, every other byte left alone, and the canonical form kept by every
operation. -/

namespace Sys2Proof.Machine

/-! ### One byte -/

@[simp] theorem Memory.read?_nil (k : Nat) : Memory.read? [] k = none := rfl

/-- A read after a write: the written byte at the written index, every other byte as before. -/
theorem Memory.read?_write (m : List Host.Cell) (k : Nat) (v : Byte) (i : Nat) :
    Memory.read? (Memory.write m k v) i = if i = k then some v else Memory.read? m i := by
  induction m with
  | nil => simp [Memory.write, Memory.read?, eq_comm]
  | cons c m ih =>
    obtain ⟨a, b⟩ := c
    rcases Nat.lt_trichotomy k a with h | h | h
    · rw [Memory.write, if_pos h, Memory.read?]
      simp [eq_comm]
    · subst h
      simp only [Memory.write, Memory.read?, Nat.lt_irrefl, if_false, if_true]
      by_cases hi : i = k
      · simp [hi]
      · simp [hi, Ne.symm hi]
    · rw [Memory.write, if_neg (by omega), if_neg (by omega), Memory.read?, ih, Memory.read?]
      by_cases hi : i = k
      · subst hi; simp [show a ≠ i by omega]
      · simp [hi]

theorem Memory.read?_write_self (m : List Host.Cell) (k : Nat) (v : Byte) :
    Memory.read? (Memory.write m k v) k = some v := by simp [Memory.read?_write]

theorem Memory.read?_write_of_ne (m : List Host.Cell) {k i : Nat} (v : Byte) (h : i ≠ k) :
    Memory.read? (Memory.write m k v) i = Memory.read? m i := by simp [Memory.read?_write, h]

/-- A write lists its own index and every index listed before. -/
theorem Memory.mem_keys_write (m : List Host.Cell) (k : Nat) (v : Byte) (i : Nat) :
    i ∈ (Memory.write m k v).map Prod.fst ↔ i = k ∨ i ∈ m.map Prod.fst := by
  induction m with
  | nil => simp [Memory.write]
  | cons c m ih =>
    obtain ⟨a, b⟩ := c
    rcases Nat.lt_trichotomy k a with h | h | h
    · simp [Memory.write, h]
    · subst h; simp [Memory.write]
    · rw [Memory.write, if_neg (by omega), if_neg (by omega), List.map_cons, List.mem_cons, ih]
      simp only [List.map_cons, List.mem_cons]
      tauto

/-! ### The canonical form -/

theorem Memory.wf_iff (m : List Host.Cell) :
    Memory.wf m = true ↔ (m.map Prod.fst).Pairwise (· < ·) ∧ ∀ a ∈ m.map Prod.fst, a < 64 := by
  simp only [Memory.wf, Bool.and_eq_true, decide_eq_true_eq, List.all_eq_true]

@[simp] theorem Memory.wf_nil : Memory.wf [] = true := rfl

theorem Memory.pairwise_write (m : List Host.Cell) (k : Nat) (v : Byte)
    (h : (m.map Prod.fst).Pairwise (· < ·)) : ((Memory.write m k v).map Prod.fst).Pairwise (· < ·) := by
  induction m with
  | nil => simp [Memory.write]
  | cons c m ih =>
    obtain ⟨a, b⟩ := c
    rw [List.map_cons, List.pairwise_cons] at h
    obtain ⟨hlt, hm⟩ := h
    rcases Nat.lt_trichotomy k a with hk | hk | hk
    · rw [Memory.write, if_pos hk, List.map_cons, List.pairwise_cons]
      refine ⟨?_, by simpa using ⟨by simpa using hlt, hm⟩⟩
      intro x hx
      rcases List.mem_cons.1 hx with rfl | hx
      · exact hk
      · exact hk.trans (hlt x hx)
    · subst hk
      simpa [Memory.write] using ⟨by simpa using hlt, hm⟩
    · rw [Memory.write, if_neg (by omega), if_neg (by omega), List.map_cons, List.pairwise_cons]
      refine ⟨fun x hx => ?_, ih hm⟩
      rcases (Memory.mem_keys_write m k v x).1 hx with rfl | hx
      · exact hk
      · exact hlt x hx

/-- A write below 64 keeps the canonical form. -/
theorem Memory.wf_write (m : List Host.Cell) {k : Nat} (v : Byte) (hk : k < 64) (h : Memory.wf m = true) :
    Memory.wf (Memory.write m k v) = true := by
  obtain ⟨hp, hb⟩ := (Memory.wf_iff m).1 h
  refine (Memory.wf_iff _).2 ⟨Memory.pairwise_write m k v hp, fun a ha => ?_⟩
  rcases (Memory.mem_keys_write m k v a).1 ha with rfl | ha
  · exact hk
  · exact hb a ha

theorem bufIndex_lt (k : Nat) : bufIndex k < 64 := Nat.mod_lt _ (by decide)

theorem bufIndex_of_lt {k : Nat} (h : k < 64) : bufIndex k = k := Nat.mod_eq_of_lt h

/-- `MemWrite` keeps the canonical form, whatever it writes and wherever. -/
theorem Memory.wf_writeBytes (m : List Host.Cell) (k : Nat) (v : List Byte) (h : Memory.wf m = true) :
    Memory.wf (Memory.writeBytes m k v) = true := by
  induction v generalizing m k with
  | nil => exact h
  | cons b bs ih => exact ih _ _ (Memory.wf_write m b (bufIndex_lt k) h)

/-! ### MemWrite and MemRead -/

/-- What `MemWrite` inside the buffer does to one byte: the written byte there, every other byte as before. -/
theorem Memory.read?_writeBytes (m : List Host.Cell) (k : Nat) (v : List Byte) (i : Nat) (hk : k + v.length ≤ 64) :
    Memory.read? (Memory.writeBytes m k v) i =
      if k ≤ i ∧ i < k + v.length then v[i - k]? else Memory.read? m i := by
  induction v generalizing m k with
  | nil => simp [Memory.writeBytes, show ¬ (k ≤ i ∧ i < k) by omega]
  | cons b bs ih =>
    simp only [List.length_cons] at hk ⊢
    rw [Memory.writeBytes, ih _ _ (by omega), Memory.read?_write, bufIndex_of_lt (by omega)]
    rcases Nat.lt_trichotomy i k with h | h | h
    · rw [if_neg (by omega), if_neg (by omega), if_neg (by omega)]
    · subst h
      rw [if_neg (by omega), if_pos rfl, if_pos (by omega), Nat.sub_self]
      rfl
    · obtain ⟨j, rfl⟩ : ∃ j, i = k + 1 + j := ⟨i - (k + 1), by omega⟩
      by_cases hj : j < bs.length
      · rw [if_pos (by omega), if_pos (by omega), show k + 1 + j - k = j + 1 by omega,
          show k + 1 + j - (k + 1) = j by omega]
        simp
      · rw [if_neg (by omega), if_neg (by omega), if_neg (by omega)]

@[simp] theorem State.length_memRead (s : State) (k n : Nat) : (s.memRead k n).length = n := by simp [State.memRead]

theorem State.getElem?_memRead (s : State) (k n i : Nat) (h : i < n) :
    (s.memRead k n)[i]? = some (s.bufByte (k + i)) := by simp [State.memRead, h]

@[simp] theorem State.length_pending (s : State) : s.pending.length = s.fill.toNat := by simp [State.pending]

/-- A byte that holds a defined value reads as that value. -/
theorem State.bufByte_of_read? {s : State} {k : Nat} {v : Byte} (hk : k < 64) (h : Memory.read? s.buf k = some v) :
    s.bufByte k = v := by simp [State.bufByte, bufIndex_of_lt hk, h]

/-- Two states with the same buffer and the same number of draws read the same bytes. -/
theorem State.memRead_congr {s t : State} (hb : s.buf = t.buf) (hd : s.draws = t.draws) (k n : Nat) :
    s.memRead k n = t.memRead k n := by simp [State.memRead, State.bufByte, hb, hd]

/-- Two states with the same buffer, draws and FILL have the same pending bytes. -/
theorem State.pending_congr {s t : State} (hb : s.buf = t.buf) (hd : s.draws = t.draws) (hf : s.fill = t.fill) :
    s.pending = t.pending := by rw [State.pending, State.pending, hf, State.memRead_congr hb hd]

/-- With FILL 0 no byte is pending. -/
theorem State.pending_of_fill_zero {s : State} (h : s.fill = 0#6) : s.pending = [] := by
  simp [State.pending, State.memRead, h]

theorem State.memRead_succ (s : State) (n : Nat) : s.memRead 0 (n + 1) = s.memRead 0 n ++ [s.bufByte n] := by
  simp [State.memRead, List.range_succ]

end Sys2Proof.Machine
end

