-- ==== Sys2Proof/Laws/Blocks.lean ====
section
/-! SUPPORT. Cutting a message into blocks and leftover bytes, and the cells of a buffer that holds given bytes. -/

namespace Sys2Proof.Machine

/-! ### Blocks and leftover -/

@[simp] theorem length_le32 (w : Word) : (le32 w).length = 4 := rfl

@[simp] theorem length_le64 (v : BitVec 64) : (le64 v).length = 8 := rfl

@[simp] theorem length_fullBlocks (m : List Byte) : (fullBlocks m).length = m.length / 64 := by simp [fullBlocks]

@[simp] theorem length_leftover (m : List Byte) : (leftover m).length = m.length % 64 := by
  simp [leftover]
  omega

/-- Bytes that do not complete a block add no block. -/
theorem fullBlocks_append_of_lt (m r : List Byte) (h : m.length % 64 + r.length < 64) :
    fullBlocks (m ++ r) = fullBlocks m := by
  have hq : (m ++ r).length / 64 = m.length / 64 := by simp; omega
  unfold fullBlocks
  rw [hq]
  refine List.map_congr_left fun i hi => ?_
  rw [List.mem_range] at hi
  rw [List.drop_append_of_le_length (by omega), List.take_append_of_le_length (by simp; omega)]

/-- Bytes that do not complete a block are left over. -/
theorem leftover_append_of_lt (m r : List Byte) (h : m.length % 64 + r.length < 64) :
    leftover (m ++ r) = leftover m ++ r := by
  have hq : (m ++ r).length / 64 = m.length / 64 := by simp; omega
  unfold leftover
  rw [hq, List.drop_append_of_le_length (by omega)]

/-- Bytes that just complete a block add that block. -/
theorem fullBlocks_append_of_eq (m r : List Byte) (h : m.length % 64 + r.length = 64) :
    fullBlocks (m ++ r) = fullBlocks m ++ [leftover m ++ r] := by
  have hq : (m ++ r).length / 64 = m.length / 64 + 1 := by simp; omega
  unfold fullBlocks leftover
  rw [hq, List.range_succ, List.map_append]
  congr 1
  · refine List.map_congr_left fun i hi => ?_
    rw [List.mem_range] at hi
    rw [List.drop_append_of_le_length (by omega), List.take_append_of_le_length (by simp; omega)]
  · rw [List.map_singleton, List.drop_append_of_le_length (by omega), List.take_of_length_le (by simp; omega)]

/-- Bytes that just complete a block leave nothing over. -/
theorem leftover_append_of_eq (m r : List Byte) (h : m.length % 64 + r.length = 64) : leftover (m ++ r) = [] := by
  simp [leftover]
  omega

/-- A message shorter than a block has no full block and is its own leftover. -/
theorem fullBlocks_of_short {m : List Byte} (h : m.length < 64) : fullBlocks m = [] := by
  simp [fullBlocks, Nat.div_eq_of_lt h]

theorem leftover_of_short {m : List Byte} (h : m.length < 64) : leftover m = m := by
  simp [leftover, Nat.div_eq_of_lt h]

/-- A message is its full blocks followed by its leftover. -/
theorem fullBlocks_flatten_append_leftover (m : List Byte) : (fullBlocks m).flatten ++ leftover m = m := by
  induction m using List.reverseRecOn with
  | nil => rfl
  | append_singleton m b ih =>
    by_cases h : m.length % 64 = 63
    · rw [fullBlocks_append_of_eq _ _ (by simp; omega), leftover_append_of_eq _ _ (by simp; omega)]
      simp [← List.append_assoc, ih]
    · rw [fullBlocks_append_of_lt _ _ (by simp; omega), leftover_append_of_lt _ _ (by simp; omega),
        ← List.append_assoc, ih]

/-! ### A buffer that holds given bytes -/

theorem cells_append (bs : List Byte) (b : Byte) : cells (bs ++ [b]) = cells bs ++ [(bs.length, b)] := by
  simp [cells, List.range_succ, List.zip_append]

/-- The indices of `cells`. -/
theorem cells_keys (bs : List Byte) : (cells bs).map Prod.fst = List.range bs.length := by
  simp [cells, List.map_fst_zip]

/-- A write above every listed index goes to the end. -/
theorem Memory.write_of_above (m : List Host.Cell) (k : Nat) (v : Byte) (h : ∀ a ∈ m.map Prod.fst, a < k) :
    Memory.write m k v = m ++ [(k, v)] := by
  induction m with
  | nil => rfl
  | cons c m ih =>
    obtain ⟨a, b⟩ := c
    have ha : a < k := h a (by simp)
    rw [Memory.write, if_neg (by omega), if_neg (by omega), ih fun x hx => h x (List.mem_cons_of_mem _ hx),
      List.cons_append]

theorem Memory.write_cells (bs : List Byte) (b : Byte) :
    Memory.write (cells bs) bs.length b = cells (bs ++ [b]) := by
  rw [cells_append, Memory.write_of_above]
  simp [cells_keys]

theorem Memory.read?_append (m n : List Host.Cell) (k : Nat) :
    Memory.read? (m ++ n) k = (Memory.read? m k).or (Memory.read? n k) := by
  induction m with
  | nil => simp
  | cons c m ih =>
    obtain ⟨a, b⟩ := c
    simp only [List.cons_append, Memory.read?]
    split <;> simp [ih]

theorem Memory.read?_cells (bs : List Byte) (k : Nat) : Memory.read? (cells bs) k = bs[k]? := by
  induction bs using List.reverseRecOn with
  | nil => rfl
  | append_singleton bs b ih =>
    rw [cells_append, Memory.read?_append, ih]
    simp only [Memory.read?]
    rcases Nat.lt_trichotomy k bs.length with h | h | h
    · rw [List.getElem?_append_left h, List.getElem?_eq_getElem h, Option.some_or]
    · subst h
      simp
    · rw [List.getElem?_eq_none (by omega), List.getElem?_eq_none (by simp; omega), if_neg (by omega), Option.none_or]

/-- The pending bytes of a buffer that holds just them. -/
theorem State.pending_of_cells {s : State} {bs : List Byte} (hb : s.buf = cells bs) (hf : s.fill.toNat = bs.length) :
    s.pending = bs := by
  have hlt := s.fill.isLt
  refine List.ext_getElem? fun i => ?_
  by_cases h : i < bs.length
  · rw [State.pending, State.getElem?_memRead _ _ _ _ (by omega), State.bufByte, bufIndex_of_lt (by omega), hb,
      Memory.read?_cells]
    simp [h]
  · rw [List.getElem?_eq_none (by simp; omega), List.getElem?_eq_none (by omega)]

end Sys2Proof.Machine
end

