-- ==== Sys2Proof/Laws/Decode.lean ====
section
/-! SUPPORT. A command word as its two fields, as numbers. -/

namespace Sys2Proof

/-- A word is its opcode times 256 plus its immediate (R71). -/
theorem word_eq_fields (w : Cmd) : w.toNat = 256 * (opcodeOf w).toNat + (immOf w).toNat := by
  simp [opcodeOf, immOf, BitVec.extractLsb'_toNat, Nat.shiftRight_eq_div_pow]
  omega

/-- Masking the immediate away leaves the opcode in its place. -/
theorem and_opcode_mask (w : Cmd) : w &&& 0xFF00#16 = (opcodeOf w).setWidth 16 <<< 8 := by
  refine BitVec.eq_of_getLsbD_eq fun i hi => ?_
  rcases i with _ | _ | _ | _ | _ | _ | _ | _ | _ | _ | _ | _ | _ | _ | _ | _ | i <;> simp [opcodeOf]

theorem and_full_mask (w : Cmd) : w &&& 0xFFFF#16 = w := by
  rw [show (0xFFFF#16) = BitVec.allOnes 16 from rfl, BitVec.and_allOnes]

end Sys2Proof
end

