-- ==== Sys2Proof/Laws/Ops.lean ====
section
/-! SUPPORT. One lemma per meaning and per step: everything it can answer. The provers cite these instead of unfolding
the meanings. -/

namespace Sys2Proof.Machine

/-! ### The four meanings -/

theorem execCtxnew_eq (s : State) : execCtxnew s = .next (s.freshContext.respond .ok 0#160) := rfl

/-- `TOUCH` answers a next state always, one of two. -/
theorem execTouch_eq (s : State) :
    execTouch s = .next (if s.phase = .finalized then s.raise .misuse
      else { s with phase := .accumulating }.respond .ok 0#160) := by
  by_cases h : s.phase = .finalized <;> simp [execTouch, State.isFinalized, h]

/-- `ABSORB b` answers a next state always, one of two. -/
theorem execAbsorb_eq (b : Byte) (s : State) :
    execAbsorb b s = .next (if s.phase = .finalized then s.raise .misuse
      else { (s.takeByte b).advanceFill with phase := .accumulating }.respond .ok 0#160) := by
  by_cases h : s.phase = .finalized <;> simp [execAbsorb, State.isFinalized, h]

/-- `FINAL` answers a next state always, one of two. -/
theorem execFinal_eq (s : State) :
    execFinal s = .next (if s.phase = .finalized then s.raise .misuse
      else { (s.compressBlocks (pad s.fill s.len s.pending)).forgetContext with phase := .finalized }.respond .ok
        (digestField (serialize (s.compressBlocks (pad s.fill s.len s.pending)).h))) := by
  by_cases h : s.phase = .finalized <;> simp [execFinal, State.isFinalized, h]

theorem State.advanceFill_of_full {s : State} (h : s.fill = 63#6) : s.advanceFill = s.drain := if_pos h

theorem State.advanceFill_of_room {s : State} (h : s.fill ≠ 63#6) :
    s.advanceFill = { s with fill := s.fill + 1#6 } := if_neg h

/-- `fill + 1` does not wrap when FILL is below 63 (R133(d)). -/
theorem fill_succ_toNat {f : BitVec 6} (h : f ≠ 63#6) : (f + 1#6).toNat = f.toNat + 1 := by
  have hlt := f.isLt
  have hne : f.toNat ≠ 63 := fun e => h (BitVec.eq_of_toNat_eq (by simpa using e))
  rw [BitVec.toNat_add]
  simp
  omega

/-- The advance of FILL, drain or not, leaves these alone. -/
theorem State.advanceFill_frame (s : State) :
    s.advanceFill.responses = s.responses ∧ s.advanceFill.inputs = s.inputs ∧ s.advanceFill.len = s.len ∧
      s.advanceFill.phase = s.phase := by
  by_cases hf : s.fill = 63#6
  · rw [State.advanceFill_of_full hf]
    simp
  · rw [State.advanceFill_of_room hf]
    simp

/-- What ABSORB's write does to one byte: the byte at FILL, every other byte as before. -/
theorem State.bufByte_takeByte (s : State) (b : Byte) (k : Nat) (hk : k < 64) :
    (s.takeByte b).bufByte k = if k = s.fill.toNat then b else s.bufByte k := by
  have hlt := s.fill.isLt
  simp only [State.bufByte, State.takeByte_buf, Memory.writeBytes, Memory.read?_write, bufIndex_of_lt hk,
    bufIndex_of_lt hlt, State.takeByte_draws]
  split <;> simp

/-- After ABSORB's write the first FILL + 1 bytes are the pending bytes and the new byte. -/
theorem State.memRead_takeByte (s : State) (b : Byte) :
    (s.takeByte b).memRead 0 (s.fill.toNat + 1) = s.pending ++ [b] := by
  have hlt := s.fill.isLt
  rw [State.memRead_succ, State.bufByte_takeByte _ _ _ hlt, if_pos rfl, State.pending]
  congr 1
  refine List.map_congr_left fun i hi => ?_
  rw [List.mem_range] at hi
  rw [State.bufByte_takeByte _ _ _ (by omega), if_neg (by omega)]

/-! ### The scheduler and the compressions -/

/-- The scheduler's run, unfolded: `Hidden.schedule` is irreducible, and this is its definition. -/
theorem Hidden.schedule_eq (h : Chain) (x : Fin 16 → Word) (d : Hidden) :
    d.schedule h x = (d.seed h).loop x Config.steps := by
  delta Hidden.schedule
  with_reducible rfl

@[simp] theorem Hidden.seed_j (h : Chain) (d : Hidden) : (d.seed h).j = 0 := rfl

@[simp] theorem Hidden.seed_left (h : Chain) (d : Hidden) : (d.seed h).left = ⟨h.h0, h.h1, h.h2, h.h3, h.h4⟩ := rfl

@[simp] theorem Hidden.seed_right (h : Chain) (d : Hidden) : (d.seed h).right = ⟨h.h0, h.h1, h.h2, h.h3, h.h4⟩ := rfl

/-- One COMPRESS on the machine changes H and the hidden registers and nothing else. -/
theorem State.compressBlock_frame (s : State) (b : List Byte) :
    s.compressBlock b = { s with h := (s.compressBlock b).h, hidden := (s.compressBlock b).hidden } := by
  simp only [State.compressBlock]

@[simp] theorem State.compressBlocks_nil (s : State) : s.compressBlocks [] = s := rfl

theorem State.compressBlocks_cons (s : State) (b : List Byte) (bs : List (List Byte)) :
    s.compressBlocks (b :: bs) = (s.compressBlock b).compressBlocks bs := by simp only [State.compressBlocks, List.foldl_cons]

theorem State.compressBlocks_frame (s : State) (bs : List (List Byte)) :
    s.compressBlocks bs = { s with h := (s.compressBlocks bs).h, hidden := (s.compressBlocks bs).hidden } := by
  induction bs generalizing s with
  | nil => simp only [State.compressBlocks_nil]
  | cons b bs ih =>
    rw [State.compressBlocks_cons, ih]
    simp only [State.compressBlock_buf, State.compressBlock_fill, State.compressBlock_len, State.compressBlock_phase,
      State.compressBlock_inputs, State.compressBlock_responses, State.compressBlock_draws]

/-- COMPRESS does not look at the host's queue. -/
theorem State.compressBlocks_of_inputs (q : List HostEvent) (bs : List (List Byte)) (s : State) :
    ({ s with inputs := q } : State).compressBlocks bs = { s.compressBlocks bs with inputs := q } := by
  induction bs generalizing s with
  | nil => rfl
  | cons b bs ih =>
    rw [State.compressBlocks_cons, State.compressBlocks_cons, ← ih]
    simp only [State.compressBlock]

/-! ### All a command can answer -/

/-- The inversion of `exec`: MISUSE on a finalized context, else the command's effect. -/
theorem exec_cases (i : Instr) (s : State) :
    (i ≠ .ctxnew ∧ s.phase = .finalized ∧ exec i s = .next (s.raise .misuse)) ∨
      ∃ t, exec i s = .next t ∧ t.inputs = s.inputs ∧ (i = .ctxnew ∨ s.phase ≠ .finalized) ∧
        match i with
        | .ctxnew => t = s.freshContext.respond .ok 0#160
        | .touch => t = { s with phase := .accumulating }.respond .ok 0#160
        | .absorb b => t = { (s.takeByte b).advanceFill with phase := .accumulating }.respond .ok 0#160
        | .final => t.phase = .finalized ∧ t.buf = [] ∧ t.responses = s.responses ++
            [⟨.ok, digestField (serialize (s.compressBlocks (pad s.fill s.len s.pending)).h)⟩] := by
  cases i with
  | ctxnew => exact .inr ⟨_, rfl, rfl, .inl rfl, rfl⟩
  | touch =>
    by_cases hp : s.phase = .finalized
    · exact .inl ⟨by simp, hp, by rw [exec, execTouch_eq, if_pos hp]⟩
    · exact .inr ⟨{ s with phase := .accumulating }.respond .ok 0#160, by rw [exec, execTouch_eq, if_neg hp], rfl,
        .inr hp, rfl⟩
  | absorb b =>
    by_cases hp : s.phase = .finalized
    · exact .inl ⟨by simp, hp, by rw [exec, execAbsorb_eq, if_pos hp]⟩
    · refine .inr ⟨_, by rw [exec, execAbsorb_eq, if_neg hp], ?_, .inr hp, rfl⟩
      simp [State.advanceFill_frame]
  | final =>
    by_cases hp : s.phase = .finalized
    · exact .inl ⟨by simp, hp, by rw [exec, execFinal_eq, if_pos hp]⟩
    · refine .inr ⟨_, by rw [exec, execFinal_eq, if_neg hp], ?_, .inr hp, ?_⟩
      · rw [State.compressBlocks_frame]
        simp
      · dsimp only
        rw [State.compressBlocks_frame]
        simp

/-- No command looks at the host's queue. -/
theorem exec_of_inputs (q : List HostEvent) (i : Instr) {s t : State} (h : exec i s = .next t) :
    exec i { s with inputs := q } = .next { t with inputs := q } := by
  cases i with
  | ctxnew =>
    simp only [exec, execCtxnew_eq, Host.Outcome.next.injEq] at *
    subst h
    rfl
  | touch =>
    simp only [exec, execTouch_eq, Host.Outcome.next.injEq] at *
    subst h
    split <;> rfl
  | absorb b =>
    simp only [exec, execAbsorb_eq, Host.Outcome.next.injEq] at *
    subst h
    split
    · rfl
    · by_cases hf : s.fill = 63#6
      · rw [State.advanceFill_of_full (by simpa using hf), State.advanceFill_of_full (by simpa using hf)]
        cases s
        simp only [State.respond, State.drain, State.forgetHidden, State.forgetBuffer, State.compressBlock,
          State.takeByte, State.memWrite, State.memRead, State.bufByte]
      · rw [State.advanceFill_of_room (by simpa using hf), State.advanceFill_of_room (by simpa using hf)]
        rfl
  | final =>
    have hp : ({ s with inputs := q } : State).pending = s.pending := State.pending_congr rfl rfl rfl
    simp only [exec, execFinal_eq, Host.Outcome.next.injEq] at *
    subst h
    split
    · rfl
    · rw [hp, State.compressBlocks_of_inputs]
      rfl

/-! ### Events and steps -/

/-- What an accepted word does: the decoded command, or an ILLEGAL response. -/
theorem runWord_cases (w : Cmd) (s : State) :
    (∃ i, decode w = .command i ∧ runWord w s = exec i s) ∨
      (∃ why, decode w = .illegal why ∧ runWord w s = .next (s.raise .illegal)) := by
  unfold runWord
  cases decode w with
  | command i => exact .inl ⟨i, rfl, rfl⟩
  | illegal why => exact .inr ⟨why, rfl, rfl⟩

/-- What a step does: nothing when no event waits, else the oldest event, which is taken off the queue. -/
theorem step_cases (s : State) :
    (s.inputs = [] ∧ step s = .next s) ∨
      (∃ e rest, s.inputs = e :: rest ∧ step s = runEvent e { s with inputs := rest }) := by
  unfold step
  cases h : s.inputs with
  | nil => exact .inl ⟨rfl, rfl⟩
  | cons e rest => exact .inr ⟨e, rest, rfl, rfl⟩

/-- The word the host presents through `withFetchWord` is the next event. -/
theorem step_withFetchWord (s : State) (nbits w : Nat) :
    step (s.withFetchWord nbits w) = runWord (tableWord nbits w) s := rfl

/-- Many steps in two parts. -/
theorem stepMany_add (m n : Nat) (s t : State) (h : stepMany m s = .next t) :
    stepMany (m + n) s = stepMany n t := by
  induction m generalizing s with
  | zero =>
    simp only [stepMany, Host.Outcome.next.injEq] at h
    simp [h]
  | succ m ih =>
    rw [Nat.succ_add]
    simp only [stepMany] at h ⊢
    cases hs : step s with
    | next u => rw [hs] at h; exact ih u h
    | fault r => rw [hs] at h; exact absurd h (by simp)
    | refused r => rw [hs] at h; exact absurd h (by simp)

/-- Playing no event. -/
@[simp] theorem State.play_nil (s : State) : s.play [] = .next s := by simp [State.play, stepMany]

/-- Playing a command's word first, then more events: the command is executed, then the rest is played. The hypothesis
on decoding is what the obligation `DecodeAndEncodeAgree` gives of every command. -/
theorem State.play_cons {s t : State} {i : Instr} (es : List HostEvent) (hd : decode (encode i) = .command i)
    (h : exec i s = .next t) (ht : t.inputs = s.inputs) : s.play (.command (encode i) :: es) = t.play es := by
  have hc := exec_of_inputs (es ++ s.inputs) i h
  simp only [State.play, List.length_cons, stepMany, step, List.cons_append, runEvent, runWord, hd, hc, ht]

end Sys2Proof.Machine
end

