-- ==== Sys2Proof/Laws/PerInstr.lean ====
section
/-! SUPPORT. Facts about every command as syntax, one lemma per constructor. -/

namespace Sys2Proof.Laws.EncodesLegal

/-- The encoding of a well-formed command is a legal word (R72, R74). -/
def Statement (i : Instr) : Prop := i.wellFormed = true → legalWord (encode i) = true

theorem ctxnew : Statement .ctxnew := fun _ => by decide

theorem touch : Statement .touch := fun _ => by decide

theorem absorb (b : Byte) : Statement (.absorb b) := fun _ => by
  have h : (0x0300#16 + b.setWidth 16) &&& 0xFF00#16 = 0x0300#16 := by
    revert b; decide
  simp [legalWord, patterns, Pattern.fits, encode, h]

theorem final : Statement .final := fun _ => by decide

end Sys2Proof.Laws.EncodesLegal
end

