-- ==== Sys2Proof/Tests/Slice0.lean ====
section
/-! SUPPORT. The model's own tests, with expected values from spec/95_test_vectors.md (the vector is named in each
comment), and for every obligation with hypotheses a witness that meets them. -/

namespace Sys2Proof.Tests

open Sys2Proof.Machine

/-! ### Small states -/

/-- A context in phase `p` that holds the pending `bytes`, with H = IV and `len` bytes absorbed. -/
def ctx (p : Phase) (bytes : List Byte) (len : BitVec 64) : State :=
  { State.reset with phase := p, fill := BitVec.ofNat 6 bytes.length, len := len, buf := cells bytes }

/-- `n` times the byte 0x61. -/
def as (n : Nat) : List Byte := List.replicate n 0x61#8

/-- The state after the word `w` is executed from `s`. -/
def after (s : State) (w : Nat) : State :=
  match step (s.withFetchWord 16 w) with
  | .next t => t
  | _ => s

/-- The last response given. -/
def lastResponse (s : State) : Option Response := s.responses.getLast?

/-! ### Decoding: words written out bit by bit from R71 and R72 (section 6) -/

theorem test_decode_ctxnew : decodeTableWord 16 0b0000000100000000 = some .ctxnew := by decide
theorem test_decode_touch : decodeTableWord 16 0b0000001000000000 = some .touch := by decide
theorem test_decode_absorb_00 : decodeTableWord 16 0b0000001100000000 = some (.absorb 0x00#8) := by decide
theorem test_decode_absorb_80 : decodeTableWord 16 0b0000001110000000 = some (.absorb 0x80#8) := by decide
theorem test_decode_absorb_ff : decodeTableWord 16 0b0000001111111111 = some (.absorb 0xFF#8) := by decide
theorem test_decode_final : decodeTableWord 16 0b0000010000000000 = some .final := by decide
theorem test_decode_all_ones : decode 0xFFFF#16 = .illegal .reservedOpcode := by decide
theorem test_decode_final_with_data : decode 0x04FF#16 = .illegal .nonzeroImmediate := by decide

/-! ### The well-formedness check: the ill-formed words it refuses, one per reason (R74), and a legal word of each row.
No term of `Instr` is ill formed (R73): what R74 refuses are words. -/

theorem test_wf_refuses_zero_word : legalWord 0x0000#16 = false := by decide
theorem test_wf_refuses_opcode_zero_with_data : legalWord 0x0061#16 = false := by decide
theorem test_wf_refuses_opcode_above_final : legalWord 0x0500#16 = false := by decide
theorem test_wf_refuses_high_opcode_bit : legalWord 0x8300#16 = false := by decide
theorem test_wf_refuses_ctxnew_with_data : legalWord 0x0101#16 = false := by decide
theorem test_wf_refuses_touch_with_data : legalWord 0x0280#16 = false := by decide
theorem test_wf_refuses_final_with_data : legalWord 0x0401#16 = false := by decide
theorem test_wf_accepts : ([0x0100#16, 0x0200#16, 0x0300#16, 0x03FF#16, 0x0400#16].all legalWord) = true := by decide
theorem test_every_command_is_well_formed (i : Instr) : i.wellFormed = true := by cases i <;> rfl

/-! ### The compression engine -/

/-- Section 5, column 2 of the boolean functions. -/
theorem test_boolF : (List.finRange 5).map (fun k => boolF k 0x01234567#32 0x89abcdef#32 0xfedcba98#32) =
    [0x76543210#32, 0xffffffff#32, 0x89abcdef#32, 0x01234567#32, 0x88888888#32] := by decide

/-- Section 5, rotations. -/
theorem test_rol : [rol 0x80000001#32 5, rol 0x12345678#32 10, rol 0xdeadbeef#32 13, rol 0x00400000#32 10] =
    [0x00000030#32, 0xd159e048#32, 0xb7ddfbd5#32, 0x00000001#32] := by decide

/-- ST7. -/
theorem test_step_st7 : mixStep ⟨0x1#32, 0x2#32, 0x3#32, 0x4#32, 0x5#32⟩ 3 0x6#32 0x8f1bbcdc#32 12 =
    ⟨0x5#32, 0xbbce68f6#32, 0x2#32, 0xc00#32, 0x4#32⟩ := by decide

/-- ST8: every addition wraps. -/
theorem test_step_st8 :
    mixStep ⟨0x80000000#32, 0x0#32, 0x00400000#32, 0x0#32, 0x80000000#32⟩ 0 0x80000000#32 0x0#32 5 =
      ⟨0x80000000#32, 0x88000000#32, 0x0#32, 0x1#32, 0x0#32⟩ := by decide

/-- CB2. -/
theorem test_combine_cb2 :
    combine ⟨0x10#32, 0x20#32, 0x30#32, 0x40#32, 0x50#32⟩ ⟨1#32, 2#32, 3#32, 4#32, 5#32⟩
      ⟨0x100#32, 0x200#32, 0x300#32, 0x400#32, 0x500#32⟩ =
        ⟨0x423#32, 0x534#32, 0x145#32, 0x251#32, 0x312#32⟩ := by decide

/-- Section 5a, the left and the right operands at j = 16 and j = 79, for words X[i] = i. -/
theorem test_operands :
    let x : Fin 16 → Word := fun i => BitVec.ofNat 32 i.val
    [leftOperands x 16, leftOperands x 79, rightOperands x 16, rightOperands x 79].map
      (fun o => (o.k, o.x, o.c, o.s)) =
        [(1, 7#32, 0x5A827999#32, 7), (4, 13#32, 0xA953FD4E#32, 6), (3, 6#32, 0x5C4DD124#32, 9),
          (0, 11#32, 0x00000000#32, 11)] := by decide

/-- Trace 4.3: the all-zero state and the all-zero block. -/
theorem test_compress_zero : compress ⟨0#32, 0#32, 0#32, 0#32, 0#32⟩ (List.replicate 64 0x00#8) =
    ⟨0x6bb9fe69#32, 0x3d09c7c0#32, 0x48ed6a0e#32, 0x7d117c5d#32, 0xadc8e12d#32⟩ := by decide +kernel

/-! ### Padding and byte order -/

/-- PD2: the block of "abc". -/
theorem test_pad_abc : pad 3#6 3#64 [0x61#8, 0x62#8, 0x63#8] =
    [[0x61#8, 0x62#8, 0x63#8, 0x80#8] ++ List.replicate 52 0x00#8 ++ [0x18#8] ++ List.replicate 7 0x00#8] := by decide

/-- PD4: 55 bytes, the longest message of one block. -/
theorem test_pad_55 : pad 55#6 55#64 (as 55) =
    [as 55 ++ [0x80#8, 0xb8#8, 0x01#8] ++ List.replicate 6 0x00#8] := by decide

/-- PD11: 63 bytes pending and LEN = 2^64 - 1: two blocks, the length field is 2^64 - 8. -/
theorem test_pad_63 : pad 63#6 0xffffffffffffffff#64 (as 63) =
    [as 63 ++ [0x80#8], List.replicate 56 0x00#8 ++ 0xf8#8 :: List.replicate 7 0xff#8] := by decide

/-- Section 5, the word view. -/
theorem test_word_view : wordView [0x61#8, 0x62#8, 0x63#8, 0x80#8, 0x01#8, 0x02#8, 0x03#8, 0x04#8] 0 = 0x80636261#32 ∧
    wordView [0x61#8, 0x62#8, 0x63#8, 0x80#8, 0x01#8, 0x02#8, 0x03#8, 0x04#8] 1 = 0x04030201#32 := by decide

/-- Section 5, SERIALIZE of IV. -/
theorem test_serialize : serialize iv = [0x01#8, 0x23#8, 0x45#8, 0x67#8, 0x89#8, 0xab#8, 0xcd#8, 0xef#8, 0xfe#8, 0xdc#8,
    0xba#8, 0x98#8, 0x76#8, 0x54#8, 0x32#8, 0x10#8, 0xf0#8, 0xe1#8, 0xd2#8, 0xc3#8] := by decide

/-! ### The commands, one step each (section 7) -/

/-- K17: CTXNEW on a finalized context. -/
theorem test_ctxnew : let t := after { ctx .finalized [] 7#64 with h := ⟨0#32, 0#32, 0#32, 0#32, 0#32⟩ } 0x0100
    t.phase = .empty ∧ t.fill = 0#6 ∧ t.len = 0#64 ∧ t.h.h0 = 0x67452301#32 ∧
      lastResponse t = some ⟨.ok, 0#160⟩ := by decide

/-- R160: CTXNEW after an ABSORB takes a fresh draw for the byte that becomes undefined; in phase Empty it takes none. -/
theorem test_ctxnew_draws : (after (ctx .accumulating (as 1) 1#64) 0x0100).draws = 1 ∧
    (after State.reset 0x0100).draws = 0 := by decide

/-- K3: TOUCH changes nothing of an accumulating context. -/
theorem test_touch : let t := after (ctx .accumulating (as 5) 5#64) 0x0200
    t.phase = .accumulating ∧ t.fill = 5#6 ∧ t.len = 5#64 ∧ t.buf = cells (as 5) ∧
      lastResponse t = some ⟨.ok, 0#160⟩ := by decide

/-- K4: TOUCH on a finalized context. -/
theorem test_touch_misuse : lastResponse (after (ctx .finalized [] 0#64) 0x0200) = some ⟨.misuse, 0#160⟩ := by decide

/-- K6: ABSORB at FILL 62 does not drain. -/
theorem test_absorb_62 : let t := after (ctx .accumulating (as 62) 62#64) 0x0361
    t.fill = 63#6 ∧ t.len = 63#64 ∧ t.h = iv ∧ t.buf = cells (as 63) := by decide

/-- K8: ABSORB at FILL 63 drains; LEN wraps without an error. -/
theorem test_absorb_63 : let t := after (ctx .accumulating (as 63) 0xffffffffffffffff#64) 0x0361
    t.fill = 0#6 ∧ t.len = 0#64 ∧ t.phase = .accumulating ∧
      t.h = ⟨0xd42339f0#32, 0xce5b9f6f#32, 0x2874a075#32, 0xdf67aaf1#32, 0xc6c1be1c#32⟩ ∧
      lastResponse t = some ⟨.ok, 0#160⟩ := by decide +kernel

/-- K12: FINAL on "abc"; the digest's byte 0 is the least significant. -/
theorem test_final_abc : let t := after (ctx .accumulating [0x61#8, 0x62#8, 0x63#8] 3#64) 0x0400
    t.phase = .finalized ∧
      lastResponse t = some ⟨.ok, 0xfc0b5af187b0c6988e4a049b7a985de0f708b28e#160⟩ := by decide +kernel

/-- A7: FINAL on 63 bytes takes two blocks. -/
theorem test_final_spill : lastResponse (after (ctx .accumulating (as 63) 63#64) 0x0400) =
    some ⟨.ok, 0xb2e61938c0cafe1fc2f8f39b3b66fe93120440e6#160⟩ := by decide +kernel

/-- K16: an illegal word on a finalized context is ILLEGAL, not MISUSE. -/
theorem test_illegal_before_misuse :
    lastResponse (after (ctx .finalized [] 0#64) 0xffff) = some ⟨.illegal, 0#160⟩ := by decide

/-! ### Witnesses: a concrete input that meets the hypotheses of each obligation, clause by clause -/

/-- `s` with these events waiting. -/
def given (s : State) (q : List HostEvent) : State := { s with inputs := q }

theorem witness_ResetEventStartsAnEmptyContextSilently :
    (given (ctx .finalized [] 9#64) [.reset]).inputs = .reset :: [] := by decide

theorem witness_CommandCutByResetActsAsReset :
    (given (ctx .accumulating (as 63) 63#64) [.commandCutByReset 0x0361#16, .reset]).inputs =
      .commandCutByReset 0x0361#16 :: [.reset] := by decide

theorem witness_DecodeAndEncodeAgree : (Instr.absorb 0xFF#8).wellFormed = true ∧
    decode 0x03FF#16 = .command (.absorb 0xFF#8) ∧ encode (.absorb 0xFF#8) = 0x03FF#16 := by decide

theorem witness_StepRunsTheDecodedCommand :
    (given State.reset [.command 0x0361#16]).inputs = .command 0x0361#16 :: [] ∧
      decode 0x0361#16 = .command (.absorb 0x61#8) ∧ decodeTableWord 16 0x0361 = some (.absorb 0x61#8) := by decide

theorem witness_IllegalWordAnswersIllegalInEveryPhase :
    (given (ctx .finalized [] 0#64) [.command 0xffff#16]).inputs = .command 0xffff#16 :: [] ∧
      legalWord 0xffff#16 = false := by decide

theorem witness_IdleEngineHoldsItsState : State.reset.inputs = [] := by decide

/-- An accepted word, and (second clause) a reset. -/
theorem witness_OneResponsePerAcceptedWordInOrder :
    (∃ t, step (given State.reset [.command 0x0000#16]) = .next t) ∧
      (∃ t, step (given State.reset [.reset]) = .next t) := ⟨⟨_, rfl⟩, ⟨_, rfl⟩⟩

theorem witness_CtxnewStartsAFreshContext : State.reset.Inv ∧ State.reset.phase = .empty := by decide

theorem witness_TouchOnlyMakesTheContextAccumulating :
    State.reset.phase ≠ .finalized ∧ (ctx .accumulating (as 63) 63#64).phase ≠ .finalized := by decide

theorem witness_AbsorbStoresOneByte : (State.reset.phase ≠ .finalized ∧ State.reset.fill ≠ 63#6) ∧
    (ctx .accumulating (as 62) 62#64).phase ≠ .finalized ∧ (ctx .accumulating (as 62) 62#64).fill ≠ 63#6 := by decide

theorem witness_AbsorbOfTheLastByteDrains :
    (ctx .accumulating (as 63) 63#64).phase ≠ .finalized ∧ (ctx .accumulating (as 63) 63#64).fill = 63#6 := by decide

theorem witness_FinalAnswersTheSerializedChain : State.reset.phase ≠ .finalized := by decide

/-- First clause; and second clause, a MISUSE response of ABSORB. -/
theorem witness_MisuseExactlyOnAFinalizedContext :
    (Instr.final ≠ .ctxnew ∧ (ctx .finalized [] 0#64).phase = .finalized) ∧
      ∃ t, exec (.absorb 0x61#8) (ctx .finalized [] 0#64) = .next t ∧
        t.responses = (ctx .finalized [] 0#64).responses ++ [⟨.misuse, 0#160⟩] := ⟨by decide, _, rfl, rfl⟩

theorem witness_LengthWrapIsNoError : (ctx .accumulating (as 63) 0xffffffffffffffff#64).phase ≠ .finalized := by decide

/-- A waiting ABSORB at the last free index, from a state that meets the invariant. -/
theorem witness_StepKeepsTheInvariants : (given (ctx .accumulating (as 62) 62#64) [.command 0x0361#16]).Inv ∧
    ∃ t, step (given (ctx .accumulating (as 62) 62#64) [.command 0x0361#16]) = .next t := ⟨by decide, _, rfl⟩

/-- A context that holds a message, at FILL 0 and at FILL 63, and each of the five events. -/
theorem witness_EventsKeepTheHeldMessage :
    State.reset.HoldsMessage [] ∧ (ctx .accumulating (as 63) 63#64).HoldsMessage (as 63) ∧
      legalWord 0x0000#16 = false ∧ (∃ t, exec .ctxnew State.reset = .next t) ∧
      (∃ t, runEvent .reset State.reset = .next t) ∧ (∃ t, exec .touch State.reset = .next t) ∧
      (∃ t, exec (.absorb 0x61#8) State.reset = .next t) ∧
      (∃ t, runEvent (.command 0x0000#16) State.reset = .next t) :=
  ⟨by decide, by decide, by decide, ⟨_, rfl⟩, ⟨_, rfl⟩, ⟨_, rfl⟩, ⟨_, rfl⟩, ⟨_, rfl⟩⟩

theorem witness_FinalAnswersTheDigestOfTheHeldMessage :
    (ctx .accumulating (as 55) 55#64).HoldsMessage (as 55) ∧ (ctx .accumulating (as 56) 56#64).HoldsMessage (as 56) := by
  decide

/-- A context whose H is not IV. -/
def zeroChain : State := { State.reset with h := ⟨0#32, 0#32, 0#32, 0#32, 0#32⟩ }

/-- A context whose first word of H differs from the free word that FINAL leaves there. -/
def unlikeFree : State := { State.reset with h := { iv with h0 := Config.freeWord 0 12 + 1#32 } }

/-- H changes: by CTXNEW, by a draining ABSORB, by FINAL. -/
theorem witness_ChainWrittenOnlyByItsWriters :
    (∃ t, runEvent (.command 0x0100#16) zeroChain = .next t ∧ t.h ≠ zeroChain.h) ∧
      (∃ t, runEvent (.command 0x0361#16) (ctx .accumulating (as 63) 63#64) = .next t ∧
        t.h ≠ (ctx .accumulating (as 63) 63#64).h) ∧
      (∃ t, runEvent (.command 0x0400#16) unlikeFree = .next t ∧ t.h ≠ unlikeFree.h) := by
  refine ⟨⟨_, rfl, by decide⟩, ⟨_, rfl, by decide +kernel⟩, ?_⟩
  · refine ⟨_, rfl, fun h => ?_⟩
    have h0 : Config.freeWord 0 12 = Config.freeWord 0 12 + 1#32 := congrArg Chain.h0 h
    generalize Config.freeWord 0 12 = w at h0
    bv_omega

/-- The byte of an ABSORB, and a byte that was there before. -/
theorem witness_BufferBytesComeFromAbsorb :
    ∃ t, runEvent (.command 0x0362#16) (ctx .accumulating (as 62) 62#64) = .next t ∧
      Memory.read? t.buf 62 = some 0x62#8 ∧ Memory.read? t.buf 61 = some 0x61#8 := ⟨_, rfl, by decide, by decide⟩

/-- A FINAL, a TOUCH and a reset. -/
theorem witness_DigestLeavesOnlyInFinal : (∃ t, runEvent (.command 0x0400#16) State.reset = .next t) ∧
    (∃ t, runEvent (.command 0x0200#16) State.reset = .next t) ∧ (∃ t, runEvent .reset State.reset = .next t) :=
  ⟨⟨_, rfl⟩, ⟨_, rfl⟩, ⟨_, rfl⟩⟩

theorem witness_OnlyCtxnewOrResetLeavesFinalized :
    ∃ t, step (given (ctx .finalized [] 0#64) [.command 0x0100#16]) = .next t ∧
      (given (ctx .finalized [] 0#64) [.command 0x0100#16]).phase = .finalized ∧ t.phase ≠ .finalized :=
  ⟨_, rfl, by decide, by decide⟩

/-- Empty against Accumulating with other hidden registers; and two finalized contexts that differ in LEN. -/
theorem witness_ResponsesIgnoreUnspecifiedState :
    State.reset.SameFuture { State.reset with phase := .accumulating, draws := 5, hidden := ⟨79, Working.zero,
      Working.zero, 1#32, 2#32⟩ } ∧
    (ctx .finalized [] 0#64).SameFuture (ctx .finalized [] 8#64) := by decide

theorem witness_AnAbandonedContextLeavesNoTrace :
    (ctx .accumulating (as 9) 9#64).inputs = (ctx .finalized [] 1#64).inputs := by decide

theorem witness_UpdateAbsorbsItsBytes :
    State.reset.phase ≠ .finalized ∧ (ctx .finalized [] 0#64).phase = .finalized := by decide

theorem witness_DigestAnswersTheDigestOfTheMessage : ([] : List Byte).length < 2 ^ 61 ∧ (as 56).length < 2 ^ 61 := by
  decide

theorem witness_PadBlocksAsDefined : ([] : List Byte).length = (0#6).toNat ∧ (as 55).length = (55#6).toNat ∧
    (55#6).toNat ≤ 55 ∧ (as 56).length = (56#6).toNat ∧ 56 ≤ (56#6).toNat ∧ (as 63).length = (63#6).toNat := by decide

theorem witness_LengthFieldIsEightTimesLen : (as 56).length = (56#6).toNat ∧
    (∃ p, (pad 56#6 56#64 (as 56)).getLast? = some p) ∧ ∃ p, (pad 56#6 56#64 (as 56)).head? = some p :=
  ⟨by decide, ⟨_, rfl⟩, ⟨_, rfl⟩⟩

/-- Lengths 55 and 56 modulo 64, the two sides of the boundary. -/
theorem witness_PaddedStreamShape : ((as 55).length < 2 ^ 61 ∧ (as 55).length % 64 ≤ 55) ∧
    (as 56).length < 2 ^ 61 ∧ 56 ≤ (as 56).length % 64 := by decide

theorem witness_RolRotatesTheBits : (1 ≤ 1 ∧ 1 ≤ 31) ∧ (1 ≤ 31 ∧ 31 ≤ 31) := by decide

/-- The last step of stage 0 and the first of stage 1. -/
theorem witness_LineOperandsFollowTheStage : (0 : Fin 5).val = (15 : Fin 80).val / 16 ∧
    (1 : Fin 5).val = (16 : Fin 80).val / 16 := by decide

/-- A cycle in which a word is accepted. -/
def acceptCycle (w : Cmd) : PortSample := ⟨false, true, true, w, false, false⟩

/-- A cycle in which a response is delivered. -/
def deliverCycle : PortSample := ⟨false, false, false, 0#16, true, true⟩

/-- A cycle in which `rst` is asserted. -/
def resetCycle : PortSample := ⟨true, true, true, 0x0100#16, false, false⟩

theorem witness_PortsNeverDropOrReorder : (∀ p ∈ [acceptCycle 0x0361#16, deliverCycle], p.rst = false) ∧
    eventsOfSamples [] [acceptCycle 0x0361#16, deliverCycle] = [.command 0x0361#16] := by decide

/-- A cycle in which a word is accepted and, at once, the oldest open word's response delivered. -/
def acceptAndDeliverCycle (w : Cmd) : PortSample := ⟨false, true, true, w, true, true⟩

/-- No delivery before the reset: the accepted word is cut. -/
theorem witness_PortsCutOpenCommandsAtReset :
    (∀ q ∈ [acceptCycle 0x0361#16], q.rst = false) ∧ resetCycle.rst = true ∧
      eventsOfSamples [] ([acceptCycle 0x0361#16] ++ resetCycle :: [acceptCycle 0x0400#16]) =
        [.commandCutByReset 0x0361#16, .reset, .command 0x0400#16] := by decide

/-- Deliveries before the reset, one in the cycle of an acceptance, with a word open at the start: the two answered words
are commands, the third is cut. The premise of the second clause holds. -/
theorem witness_PortsCutOpenCommandsAtReset_answered :
    let ps := [acceptAndDeliverCycle 0x0361#16, deliverCycle, acceptCycle 0x0362#16]
    (∀ q ∈ ps, q.rst = false) ∧ resetCycle.rst = true ∧
      (∀ k ≤ ps.length, ((ps.take k).filter PortSample.delivers).length ≤
        [0x0200#16].length + ((ps.take k).filter PortSample.accepts).length) ∧
      eventsOfSamples [0x0200#16] (ps ++ resetCycle :: []) =
        [.command 0x0200#16, .command 0x0361#16, .commandCutByReset 0x0362#16, .reset] := by decide

end Sys2Proof.Tests
end

/-! PROOFS. The word rotation of R8 and the byte-order functions of R9. -/

namespace Sys2Proof.Machine

/-! ### Rotation (R8) -/

/-- The bits that `rol` shifts to the left: those that stay below bit 32, moved up by `n`. -/
theorem mul_two_pow_mod_word (x : Nat) {n : Nat} (hn : n ≤ 32) :
    x * 2 ^ n % 2 ^ 32 = 2 ^ n * (x % 2 ^ (32 - n)) := by
  rw [← Nat.sub_add_cancel hn, pow_add, Nat.mul_mod_mul_right, Nat.add_sub_cancel, Nat.mul_comm]

/-- The bits that `rol` wraps around fit below the `n` places that the shift leaves free. -/
theorem wrapped_lt_two_pow (a : Word) {n : Nat} (hn : n ≤ 32) : a.toNat / 2 ^ (32 - n) < 2 ^ n := by
  rw [Nat.div_lt_iff_lt_mul (Nat.two_pow_pos _), ← pow_add, Nat.add_sub_cancel' hn]
  exact a.isLt

/-- The two parts of `rol` share no bit, so their sum is their bitwise or. -/
theorem rol_parts_add_eq_or (a : Word) {n : Nat} (hn : n ≤ 32) :
    a.toNat * 2 ^ n % 2 ^ 32 + a.toNat / 2 ^ (32 - n) =
      a.toNat * 2 ^ n % 2 ^ 32 ||| a.toNat / 2 ^ (32 - n) := by
  rw [mul_two_pow_mod_word _ hn]
  exact Nat.two_pow_add_eq_or_of_lt (wrapped_lt_two_pow a hn) _

/-- The library's rotation as the number that R8 writes. -/
theorem toNat_rotateLeft_eq_add (a : Word) {n : Nat} (hn : n < 32) :
    (a.rotateLeft n).toNat = a.toNat * 2 ^ n % 2 ^ 32 + a.toNat / 2 ^ (32 - n) := by
  rw [rol_parts_add_eq_or a hn.le, BitVec.toNat_rotateLeft, Nat.mod_eq_of_lt hn, Nat.shiftLeft_eq,
    Nat.shiftRight_eq_div_pow]

/-- For `n` in its range, `rol` is the library's rotation. -/
theorem rol_eq_rotateLeft (a : Word) {n : Nat} (hn : n < 32) : rol a n = a.rotateLeft n := by
  rw [rol, ← toNat_rotateLeft_eq_add a hn, BitVec.ofNat_toNat, BitVec.setWidth_eq]

/-- The sum in `rol` does not overflow. -/
theorem toNat_rol (a : Word) {n : Nat} (hn : n < 32) :
    (rol a n).toNat = a.toNat * 2 ^ n % 2 ^ 32 + a.toNat / 2 ^ (32 - n) := by
  rw [rol_eq_rotateLeft a hn, toNat_rotateLeft_eq_add a hn]

/-- Bit `i` goes to place `i + n`, or wraps to place `i + n - 32`. -/
theorem getLsbD_rol (a : Word) {n i : Nat} (hn : n < 32) (hi : i < 32) :
    (rol a n).getLsbD ((i + n) % 32) = a.getLsbD i := by
  rw [rol_eq_rotateLeft a hn, BitVec.getLsbD_rotateLeft, Nat.mod_eq_of_lt hn]
  rcases Nat.lt_or_ge (i + n) 32 with hstay | hwrap
  · have hplace : (i + n) % 32 = i + n := Nat.mod_eq_of_lt hstay
    simp [hplace, hstay]
  · have hplace : (i + n) % 32 = i + n - 32 := by omega
    have hlow : i + n - 32 < n := by omega
    have hback : 32 - n + (i + n - 32) = i := by omega
    simp [hplace, hlow, hback]

/-- Settles O38: `rol` is the library's rotation, whose two parts share no bit. -/
theorem rolRotatesTheBits : Obligations.RolRotatesTheBits := by
  intro a n _ hn
  exact ⟨toNat_rol a (Nat.lt_succ_of_le hn), fun i => getLsbD_rol a (Nat.lt_succ_of_le hn) i.isLt⟩

/-! ### Byte order (R9) -/

/-- Byte `m` of `LE32(w)` is `w[8m+7:8m]`. -/
theorem getElem?_le32 (w : Word) (m : Fin 4) : (le32 w)[m.val]? = some (w.extractLsb' (8 * m.val) 8) := by
  fin_cases m <;> rfl

/-- Byte `m` of `LE64(v)` is `v[8m+7:8m]`. -/
theorem getElem?_le64 (v : BitVec 64) (m : Fin 8) : (le64 v)[m.val]? = some (v.extractLsb' (8 * m.val) 8) := by
  fin_cases m <;> rfl

/-- The sum in `W32` does not overflow. -/
theorem toNat_w32 (b0 b1 b2 b3 : Byte) :
    (w32 b0 b1 b2 b3).toNat = b0.toNat + 2 ^ 8 * b1.toNat + 2 ^ 16 * b2.toNat + 2 ^ 24 * b3.toNat := by
  rw [w32, BitVec.toNat_ofNat]
  omega

/-- `W32` puts a word together again from its four bytes. -/
theorem w32_extract_bytes (w : Word) :
    w32 (w.extractLsb' 0 8) (w.extractLsb' 8 8) (w.extractLsb' 16 8) (w.extractLsb' 24 8) = w := by
  apply BitVec.eq_of_toNat_eq
  simp only [toNat_w32, BitVec.extractLsb'_toNat, Nat.shiftRight_eq_div_pow]
  omega

/-- `LE32` takes apart what `W32` put together. -/
theorem le32_w32 (b0 b1 b2 b3 : Byte) : le32 (w32 b0 b1 b2 b3) = [b0, b1, b2, b3] := by
  simp only [le32, List.cons.injEq, and_true, ← BitVec.toNat_inj, toNat_w32, BitVec.extractLsb'_toNat,
    Nat.shiftRight_eq_div_pow]
  omega

/-- Settles O46: the bytes by position, and the two round trips as numbers. -/
theorem byteOrderFunctionsAreInverse : Obligations.ByteOrderFunctionsAreInverse :=
  ⟨getElem?_le32, getElem?_le64, fun w => ⟨_, _, _, _, rfl, w32_extract_bytes w⟩, le32_w32⟩

end Sys2Proof.Machine

/-! PROOFS. Decoding a word (R72, R80): a word that decodes to a command is that command's word. -/

namespace Sys2Proof

/-- A word is determined by its two fields. -/
theorem word_ext_fields {v w : Cmd} (hop : opcodeOf v = opcodeOf w) (himm : immOf v = immOf w) : v = w := by
  apply BitVec.eq_of_toNat_eq
  rw [word_eq_fields v, word_eq_fields w, hop, himm]

theorem opcodeOf_encode_absorb (b : Byte) : opcodeOf (encode (.absorb b)) = 0x03#8 := by
  revert b; decide

theorem immOf_encode_absorb (b : Byte) : immOf (encode (.absorb b)) = b := by
  revert b; decide

/-- What `fields_of_decode` asks, for a command that takes no operand. -/
theorem fields_of_bareCommand {w : Cmd} {i j : Instr} (h : bareCommand i (immOf w) = .command j)
    (himm : immOf (encode i) = 0x00#8) (hop : opcodeOf w = opcodeOf (encode i)) :
    opcodeOf w = opcodeOf (encode j) ∧ immOf w = immOf (encode j) := by
  unfold bareCommand at h
  split at h
  · next hzero =>
    obtain rfl := Decoded.command.inj h
    exact ⟨hop, hzero.trans himm.symm⟩
  · cases h

/-- The inversion of `decode`: the fields of a word that decodes to a command are those of the command's word. -/
theorem fields_of_decode {w : Cmd} {i : Instr} (h : decode w = .command i) :
    opcodeOf w = opcodeOf (encode i) ∧ immOf w = immOf (encode i) := by
  unfold decode at h
  split at h
  · next hop =>
    obtain rfl := Decoded.command.inj h
    exact ⟨hop.trans (opcodeOf_encode_absorb _).symm, (immOf_encode_absorb _).symm⟩
  split at h
  · next hop => exact fields_of_bareCommand h rfl hop
  split at h
  · next hop => exact fields_of_bareCommand h rfl hop
  split at h
  · next hop => exact fields_of_bareCommand h rfl hop
  · cases h

/-- A word that decodes to a command is that command's word. -/
theorem encode_of_decode {w : Cmd} {i : Instr} (h : decode w = .command i) : encode i = w :=
  have ⟨hop, himm⟩ := fields_of_decode h
  (word_ext_fields hop himm).symm

/-- Every command's word is legal. -/
theorem legalWord_encode (i : Instr) : legalWord (encode i) = true := by
  cases i with
  | ctxnew => exact Laws.EncodesLegal.ctxnew rfl
  | touch => exact Laws.EncodesLegal.touch rfl
  | absorb b => exact Laws.EncodesLegal.absorb b rfl
  | final => exact Laws.EncodesLegal.final rfl

/-- A word that decodes to a command is legal. -/
theorem legalWord_of_decode {w : Cmd} {i : Instr} (h : decode w = .command i) : legalWord w = true :=
  encode_of_decode h ▸ legalWord_encode i

end Sys2Proof

/-! PROOFS. The scheduler's run is the two lines of R139, so that COMPRESS on the machine is the pure function of R143
whatever the hidden registers hold. -/

namespace Sys2Proof.Machine

/-- The step numbers from `j` on are `j` and those from `j + 1` on. -/
theorem drop_finRange_eq_cons (j : Fin 80) :
    (List.finRange 80).drop j.val = j :: (List.finRange 80).drop (j.val + 1) := by
  rw [List.drop_eq_getElem_cons (by simp)]
  simp

/-- The scheduler, from any step number, with passes enough to finish: each line takes the steps that are left. -/
theorem Hidden.loop_lines (x : Fin 16 → Word) (n : Nat) (d : Hidden) (hn : 80 ≤ d.j.val + n) :
    (d.loop x n).left = ((List.finRange 80).drop d.j.val).foldl (fun w j => (leftOperands x j).run w) d.left ∧
      (d.loop x n).right = ((List.finRange 80).drop d.j.val).foldl (fun w j => (rightOperands x j).run w) d.right := by
  induction n generalizing d with
  | zero => omega
  | succ n ih =>
    rw [drop_finRange_eq_cons, List.foldl_cons, List.foldl_cons, Hidden.loop]
    by_cases hlast : d.j.val = 79
    · have hdone : (List.finRange 80).drop (d.j.val + 1) = [] := by simp [hlast]
      rw [hdone]
      simp [Hidden.stepPair, hlast]
    · have hnext : (d.j + 1).val = d.j.val + 1 := by
        rw [Fin.val_add_one_of_lt']
        omega
      have hrest := ih { d.stepPair x with j := d.j + 1 } (by rw [hnext]; omega)
      rw [hnext] at hrest
      simpa [Hidden.stepPair, hlast] using hrest

/-- The scheduler computes both lines from the chaining state alone: seeding overwrites what the lines held (R134). -/
theorem Hidden.schedule_lines (h : Chain) (x : Fin 16 → Word) (d : Hidden) :
    (d.schedule h x).left = lineL h x ∧ (d.schedule h x).right = lineR h x := by
  rw [Hidden.schedule_eq]
  exact Hidden.loop_lines x Config.steps (d.seed h) (Nat.le_add_left _ _)

/-- COMPRESS on the machine writes H with the pure function's result. -/
theorem State.compressBlock_h_eq_compress (s : State) (block : List Byte) :
    (s.compressBlock block).h = compress s.h block := by
  obtain ⟨hleft, hright⟩ := s.hidden.schedule_lines s.h (wordView block)
  rw [State.compressBlock_h, hleft, hright, compress]

/-- FINAL's loop writes H with the fold of the pure function. -/
theorem State.compressBlocks_h (s : State) (blocks : List (List Byte)) :
    (s.compressBlocks blocks).h = compressAll s.h blocks := by
  induction blocks generalizing s with
  | nil => rfl
  | cons block blocks ih =>
    rw [State.compressBlocks_cons, ih, State.compressBlock_h_eq_compress, compressAll, compressAll, List.foldl_cons]

/-! PROOFS. ABSORB's two parts taken together: the byte is stored and FILL advances (R162, R163). One equation per
register, over both cases of the drain. -/

/-- FILL is at its last value exactly when it is the number 63. -/
theorem fill_eq_last_iff {f : BitVec 6} : f = 63#6 ↔ f.toNat = 63 := by
  rw [← BitVec.toNat_inj, BitVec.toNat_ofNat]

/-- FILL advances by one modulo 64, for the drain writes 0 where `63 + 1` wraps to 0. -/
theorem State.advanceFill_fill (s : State) : s.advanceFill.fill = s.fill + 1#6 := by
  by_cases hf : s.fill = 63#6
  · rw [State.advanceFill_of_full hf, State.drain_fill, hf]
    rfl
  · rw [State.advanceFill_of_room hf]

theorem State.absorb_buf (s : State) (b : Byte) :
    (s.takeByte b).advanceFill.buf = if s.fill = 63#6 then [] else Memory.writeBytes s.buf s.fill.toNat [b] := by
  split
  · next hf => rw [State.advanceFill_of_full (by simpa using hf), State.drain_buf]
  · next hf => simp [State.advanceFill_of_room (s := s.takeByte b) (by simpa using hf)]

theorem State.absorb_h (s : State) (b : Byte) :
    (s.takeByte b).advanceFill.h = if s.fill = 63#6 then compress s.h (s.pending ++ [b]) else s.h := by
  split
  · next hf =>
    have hblock : (s.takeByte b).memRead 0 64 = s.pending ++ [b] := by
      rw [← State.memRead_takeByte, hf]
      rfl
    rw [State.advanceFill_of_full (by simpa using hf), State.drain_h, State.compressBlock_h_eq_compress,
      State.takeByte_h, hblock]
  · next hf => simp [State.advanceFill_of_room (s := s.takeByte b) (by simpa using hf)]

theorem State.absorb_pending (s : State) (b : Byte) :
    (s.takeByte b).advanceFill.pending = if s.fill = 63#6 then [] else s.pending ++ [b] := by
  split
  · next hf =>
    rw [State.advanceFill_of_full (by simpa using hf)]
    exact State.pending_of_fill_zero (State.drain_fill _)
  · next hf =>
    rw [← State.memRead_takeByte, State.pending, State.advanceFill_fill, State.takeByte_fill, fill_succ_toNat hf,
      State.advanceFill_of_room (by simpa using hf)]
    exact State.memRead_congr rfl rfl _ _

/-- ABSORB's length counter, modulo the block size. -/
theorem toNat_len_succ_mod (len : BitVec 64) : (len + 1#64).toNat % 64 = (len.toNat + 1) % 64 := by
  simp [BitVec.toNat_add]

theorem toNat_fill_succ (f : BitVec 6) : (f + 1#6).toNat = (f.toNat + 1) % 64 := by
  rw [BitVec.toNat_add, BitVec.toNat_ofNat]

/-! ### The pending bytes depend on BUF, FILL and the draws alone -/

@[simp] theorem State.respond_pending (s : State) (st : Status) (d : BitVec 160) :
    (s.respond st d).pending = s.pending := State.pending_congr (by simp) (by simp) (by simp)

@[simp] theorem State.raise_pending (s : State) (st : Status) : (s.raise st).pending = s.pending :=
  State.pending_congr (by simp) (by simp) (by simp)

@[simp] theorem State.pending_of_phase (s : State) (p : Phase) : ({ s with phase := p } : State).pending = s.pending :=
  State.pending_congr rfl rfl rfl

@[simp] theorem State.pending_of_inputs (s : State) (q : List HostEvent) :
    ({ s with inputs := q } : State).pending = s.pending := State.pending_congr rfl rfl rfl

/-! ### One rule per command -/

theorem exec_ctxnew (s : State) : exec .ctxnew s = .next (s.freshContext.respond .ok 0#160) := rfl

/-- R190: on a finalized context every command but CTXNEW answers MISUSE. -/
theorem exec_of_finalized {i : Instr} {s : State} (hi : i ≠ .ctxnew) (hp : s.phase = .finalized) :
    exec i s = .next (s.raise .misuse) := by
  rcases exec_cases i s with ⟨-, -, h⟩ | ⟨t, -, -, hlive, -⟩
  · exact h
  · exact absurd hp (hlive.resolve_left hi)

theorem exec_touch_of_live {s : State} (hp : s.phase ≠ .finalized) :
    exec .touch s = .next ({ s with phase := .accumulating }.respond .ok 0#160) := by
  rw [exec, execTouch_eq, if_neg hp]

theorem exec_absorb_of_live {s : State} (b : Byte) (hp : s.phase ≠ .finalized) :
    exec (.absorb b) s = .next ({ (s.takeByte b).advanceFill with phase := .accumulating }.respond .ok 0#160) := by
  rw [exec, execAbsorb_eq, if_neg hp]

/-- R164, with the digest from the pure COMPRESS; of H, FILL and LEN afterwards nothing is said (R165). -/
theorem exec_final_of_live {s : State} (hp : s.phase ≠ .finalized) :
    ∃ t, exec .final s = .next t ∧ t.phase = .finalized ∧ t.buf = [] ∧ t.inputs = s.inputs ∧ t.responses =
      s.responses ++ [⟨.ok, digestField (serialize (compressAll s.h (pad s.fill s.len s.pending)))⟩] := by
  rcases exec_cases .final s with ⟨-, hfin, -⟩ | ⟨t, hexec, hin, -, hphase, hbuf, hresp⟩
  · exact absurd hfin hp
  · rw [State.compressBlocks_h] at hresp
    exact ⟨t, hexec, hphase, hbuf, hin, hresp⟩

/-- An illegal word answers ILLEGAL and changes nothing else (R191). -/
theorem runWord_of_illegal {w : Cmd} (s : State) (hw : legalWord w = false) :
    runWord w s = .next (s.raise .illegal) := by
  rcases runWord_cases w s with ⟨i, hdec, -⟩ | ⟨-, -, h⟩
  · rw [legalWord_of_decode hdec] at hw
    cases hw
  · exact h

end Sys2Proof.Machine

/-! PROOFS. Fresh contexts: what the start state, CTXNEW and reset have in common (R35, R160, R210). -/

namespace Sys2Proof.Machine

/-- A context as reset and CTXNEW leave it. -/
structure State.IsFresh (s : State) : Prop where
  phase : s.phase = .empty
  len : s.len = 0#64
  fill : s.fill = 0#6
  h : s.h = iv
  buf : s.buf = []

theorem State.reset_isFresh : State.reset.IsFresh := ⟨rfl, rfl, rfl, rfl, rfl⟩

theorem State.ctxnew_isFresh (s : State) (st : Status) (d : BitVec 160) : (s.freshContext.respond st d).IsFresh := by
  constructor <;> simp

theorem State.assertReset_isFresh (s : State) : s.assertReset.IsFresh := by
  constructor <;> simp

theorem State.IsFresh.inv {s : State} (hs : s.IsFresh) : s.Inv := by
  simp [State.Inv, hs.phase, hs.len, hs.fill, hs.h, hs.buf]

theorem State.IsFresh.holdsMessage_nil {s : State} (hs : s.IsFresh) : s.HoldsMessage [] := by
  simp only [State.HoldsMessage, hs.phase, hs.len, hs.fill, hs.h, hs.buf]
  exact ⟨by simp, rfl, rfl, rfl, rfl⟩

/-- Two fresh contexts with the same events waiting cannot be told apart. -/
theorem State.IsFresh.sameFuture {s t : State} (hs : s.IsFresh) (ht : t.IsFresh) (hin : s.inputs = t.inputs) :
    s.SameFuture t := by
  refine ⟨hin, .inr ⟨?_, ?_, ?_, ?_, ?_, ?_⟩⟩
  · simp [hs.phase]
  · simp [ht.phase]
  · rw [hs.h, ht.h]
  · rw [hs.len, ht.len]
  · rw [hs.fill, ht.fill]
  · rw [State.pending_of_fill_zero hs.fill, State.pending_of_fill_zero ht.fill]

/-- Settles O1: the start state is a fresh context, and the words of IV are the ROM's. -/
theorem resetLeavesAnEmptyContext : Obligations.ResetLeavesAnEmptyContext :=
  ⟨State.reset_isFresh.phase, State.reset_isFresh.len, State.reset_isFresh.fill, by rw [State.reset_isFresh.h]; rfl⟩

/-- Settles O2: the start state is a fresh context. -/
theorem resetMeetsInvariants : Obligations.ResetMeetsInvariants :=
  ⟨State.reset_isFresh.inv, State.reset_isFresh.holdsMessage_nil⟩

end Sys2Proof.Machine

/-! PROOFS. The codes of PHASE and of the status (R27, R77). -/

namespace Sys2Proof.Machine

theorem Phase.eq_of_code_eq {p q : Phase} (h : p.code = q.code) : p = q := by
  cases p <;> cases q <;> simp [Phase.code] at h ⊢

theorem Status.eq_of_code_eq {p q : Status} (h : p.code = q.code) : p = q := by
  cases p <;> cases q <;> simp [Status.code] at h ⊢

theorem Phase.code_ne_three (p : Phase) : p.code ≠ 3#2 := by
  cases p <;> decide

theorem Status.code_ne_three (st : Status) : st.code ≠ 3#2 := by
  cases st <;> decide

/-- Settles O50: the two code tables are injective and leave out 3. -/
theorem phaseAndStatusCodes : Obligations.PhaseAndStatusCodes :=
  ⟨⟨rfl, rfl, rfl⟩, ⟨rfl, rfl, rfl⟩, fun _ _ => Phase.eq_of_code_eq, fun _ _ => Status.eq_of_code_eq,
    Phase.code_ne_three, Status.code_ne_three⟩

end Sys2Proof.Machine

/-! PROOFS. Every step keeps the invariants of R34 (a) to (c) and the canonical form of BUF. -/

namespace Sys2Proof.Machine

@[simp] theorem State.respond_inv (s : State) (st : Status) (d : BitVec 160) : (s.respond st d).Inv ↔ s.Inv := by
  simp [State.Inv]

@[simp] theorem State.raise_inv (s : State) (st : Status) : (s.raise st).Inv ↔ s.Inv := by
  simp [State.Inv]

/-- Where exactly the pending bytes are listed, ABSORB's write lists the new byte after them. -/
theorem State.takeByte_keys {s : State} (b : Byte) (hkeys : s.buf.map Prod.fst = List.range s.fill.toNat) :
    (s.takeByte b).buf.map Prod.fst = List.range (s.fill.toNat + 1) := by
  have habove : ∀ a ∈ s.buf.map Prod.fst, a < s.fill.toNat := by simp [hkeys]
  rw [State.takeByte_buf, Memory.writeBytes, Memory.writeBytes, bufIndex_of_lt s.fill.isLt,
    Memory.write_of_above _ _ _ habove, List.map_append, hkeys, List.range_succ]
  rfl

/-- TOUCH makes an Empty context Accumulating, of which the invariant asks less. -/
theorem State.Inv.touch {s : State} (hs : s.Inv) (hp : s.phase ≠ .finalized) :
    ({ s with phase := .accumulating } : State).Inv := by
  obtain ⟨hwf, -, hfill, hkeys, -⟩ := hs
  exact ⟨hwf, by simp, fun _ => hfill hp, fun _ => hkeys hp, by simp⟩

/-- ABSORB keeps the invariant: FILL and LEN advance together, and so do FILL and the listed bytes, but for the drain,
which lists no byte and makes FILL 0. -/
theorem State.Inv.absorb {s : State} (b : Byte) (hs : s.Inv) (hp : s.phase ≠ .finalized) :
    ({ (s.takeByte b).advanceFill with phase := .accumulating } : State).Inv := by
  obtain ⟨hwf, -, hfill, hkeys, -⟩ := hs
  obtain ⟨-, -, hlen, -⟩ := (s.takeByte b).advanceFill_frame
  refine ⟨?_, by simp, fun _ => ?_, fun _ => ?_, by simp⟩
  · rw [State.absorb_buf]
    split
    · rfl
    · exact Memory.wf_writeBytes _ _ _ hwf
  · rw [State.advanceFill_fill, State.takeByte_fill, hlen, State.takeByte_len, toNat_fill_succ, toNat_len_succ_mod,
      hfill hp, Nat.mod_add_mod]
  · rw [State.absorb_buf, State.advanceFill_fill, State.takeByte_fill]
    split
    · next hf =>
      rw [hf]
      rfl
    · next hf => rw [← State.takeByte_buf, State.takeByte_keys b (hkeys hp), fill_succ_toNat hf]

/-- Every command keeps the invariant. -/
theorem exec_inv {i : Instr} {s t : State} (hs : s.Inv) (h : exec i s = .next t) : t.Inv := by
  rcases exec_cases i s with ⟨-, -, hexec⟩ | ⟨u, hexec, -, hlive, heffect⟩
  · obtain rfl := Host.Outcome.next.inj (hexec.symm.trans h)
    exact (State.raise_inv _ _).2 hs
  · obtain rfl := Host.Outcome.next.inj (hexec.symm.trans h)
    cases i with
    | ctxnew =>
      obtain rfl := heffect
      exact (State.ctxnew_isFresh ..).inv
    | touch =>
      obtain rfl := heffect
      exact (State.respond_inv ..).2 (hs.touch (hlive.resolve_left (by simp)))
    | absorb b =>
      obtain rfl := heffect
      exact (State.respond_inv ..).2 (hs.absorb b (hlive.resolve_left (by simp)))
    | final =>
      obtain ⟨hphase, hbuf, -⟩ := heffect
      simp [State.Inv, hphase, hbuf]

/-- Every host event keeps the invariant. -/
theorem runEvent_inv {e : HostEvent} {s t : State} (hs : s.Inv) (h : runEvent e s = .next t) : t.Inv := by
  cases e with
  | command w =>
    rcases runWord_cases w s with ⟨i, -, hrun⟩ | ⟨-, -, hrun⟩
    · exact exec_inv hs (hrun.symm.trans h)
    · obtain rfl := Host.Outcome.next.inj (hrun.symm.trans h)
      exact (State.raise_inv _ _).2 hs
  | reset =>
    obtain rfl := Host.Outcome.next.inj h
    exact s.assertReset_isFresh.inv
  | commandCutByReset w =>
    obtain rfl := Host.Outcome.next.inj h
    exact s.assertReset_isFresh.inv

/-- Settles O21: the oldest event keeps the invariant, which says nothing of the host's queue. -/
theorem stepKeepsTheInvariants : Obligations.StepKeepsTheInvariants := by
  intro s t hs h
  rcases step_cases s with ⟨-, hstep⟩ | ⟨e, rest, -, hstep⟩
  · obtain rfl := Host.Outcome.next.inj (hstep.symm.trans h)
    exact hs
  · have hs' : ({ s with inputs := rest } : State).Inv := hs
    exact runEvent_inv hs' (hstep.symm.trans h)

end Sys2Proof.Machine

/-! PROOFS. What each event does to the message a context holds (R34(d)). -/

namespace Sys2Proof.Machine

@[simp] theorem State.respond_holdsMessage (s : State) (st : Status) (d : BitVec 160) (m : List Byte) :
    (s.respond st d).HoldsMessage m ↔ s.HoldsMessage m := by
  simp [State.HoldsMessage]

@[simp] theorem State.raise_holdsMessage (s : State) (st : Status) (m : List Byte) :
    (s.raise st).HoldsMessage m ↔ s.HoldsMessage m := by
  simp [State.HoldsMessage]

theorem State.HoldsMessage.live {s : State} {m : List Byte} (hs : s.HoldsMessage m) : s.phase ≠ .finalized := hs.1

/-- The pending bytes of a context that holds `m` are the bytes of `m` after its full blocks. -/
theorem State.HoldsMessage.pending_eq {s : State} {m : List Byte} (hs : s.HoldsMessage m) : s.pending = leftover m := by
  obtain ⟨-, -, hfill, hbuf, -⟩ := hs
  exact State.pending_of_cells hbuf (by rw [hfill, length_leftover])

theorem State.HoldsMessage.touch {s : State} {m : List Byte} (hs : s.HoldsMessage m) :
    ({ s with phase := .accumulating } : State).HoldsMessage m := by
  obtain ⟨-, hrest⟩ := hs
  exact ⟨by simp, hrest⟩

/-- A byte absorbed after `m`: BUF lists it after the leftover bytes, or holds nothing when it completed a block. -/
theorem State.HoldsMessage.absorb_buf_eq {s : State} {m : List Byte} (b : Byte) (hs : s.HoldsMessage m) :
    (s.takeByte b).advanceFill.buf = cells (leftover (m ++ [b])) := by
  obtain ⟨-, -, hfill, hbuf, -⟩ := hs
  have hlt := s.fill.isLt
  rw [State.absorb_buf]
  split
  · next hf =>
    rw [fill_eq_last_iff] at hf
    rw [leftover_append_of_eq _ _ (by simp; omega)]
    rfl
  · next hf =>
    rw [fill_eq_last_iff] at hf
    rw [leftover_append_of_lt _ _ (by simp; omega), Memory.writeBytes, Memory.writeBytes, bufIndex_of_lt hlt, hbuf,
      hfill, ← length_leftover, Memory.write_cells]

/-- A byte absorbed after `m`: H folds in the block that the byte completes, if it completes one. -/
theorem State.HoldsMessage.absorb_h_eq {s : State} {m : List Byte} (b : Byte) (hs : s.HoldsMessage m) :
    (s.takeByte b).advanceFill.h = compressAll iv (fullBlocks (m ++ [b])) := by
  have hpending := hs.pending_eq
  obtain ⟨-, -, hfill, -, hh⟩ := hs
  have hlt := s.fill.isLt
  rw [State.absorb_h]
  split
  · next hf =>
    rw [fill_eq_last_iff] at hf
    rw [fullBlocks_append_of_eq _ _ (by simp; omega), hh, hpending, compressAll, compressAll, List.foldl_append]
    rfl
  · next hf =>
    rw [fill_eq_last_iff] at hf
    rw [fullBlocks_append_of_lt _ _ (by simp; omega), hh]

/-- ABSORB appends its byte to the held message. -/
theorem State.HoldsMessage.absorb {s : State} {m : List Byte} (b : Byte) (hs : s.HoldsMessage m) :
    ({ (s.takeByte b).advanceFill with phase := .accumulating } : State).HoldsMessage (m ++ [b]) := by
  have hbuf := hs.absorb_buf_eq b
  have hh := hs.absorb_h_eq b
  obtain ⟨-, hlen, hfill, -, -⟩ := hs
  obtain ⟨-, -, hlen', -⟩ := (s.takeByte b).advanceFill_frame
  refine ⟨by simp, ?_, ?_, hbuf, hh⟩
  · rw [hlen', State.takeByte_len, BitVec.toNat_add, hlen, List.length_append, Nat.mod_add_mod]
    rfl
  · rw [State.advanceFill_fill, State.takeByte_fill, toNat_fill_succ, hfill, List.length_append, Nat.mod_add_mod]
    rfl

/-- Settles O22: CTXNEW and reset start afresh, TOUCH and an illegal word leave the message, ABSORB appends to it. -/
theorem eventsKeepTheHeldMessage : Obligations.EventsKeepTheHeldMessage := by
  refine ⟨fun s t h => ?_, fun s t h => ?_, fun s t m hs h => ?_, fun s t m b hs h => ?_, fun s t m w hs hw h => ?_⟩
  · obtain rfl := Host.Outcome.next.inj h
    exact (State.ctxnew_isFresh ..).holdsMessage_nil
  · obtain rfl := Host.Outcome.next.inj h
    exact s.assertReset_isFresh.holdsMessage_nil
  · obtain rfl := Host.Outcome.next.inj ((exec_touch_of_live hs.live).symm.trans h)
    exact (State.respond_holdsMessage ..).2 hs.touch
  · obtain rfl := Host.Outcome.next.inj ((exec_absorb_of_live b hs.live).symm.trans h)
    exact (State.respond_holdsMessage ..).2 (hs.absorb b)
  · obtain rfl := Host.Outcome.next.inj ((runWord_of_illegal s hw).symm.trans h)
    exact (State.raise_holdsMessage ..).2 hs

end Sys2Proof.Machine

/-! PROOFS. Which events write H (R21). -/

namespace Sys2Proof.Machine

/-- A command that changes H is CTXNEW, an ABSORB that drains, or FINAL. -/
theorem exec_writers_of_h {i : Instr} {s t : State} (h : exec i s = .next t) (hne : t.h ≠ s.h) :
    (i = .ctxnew ∧ t.h = iv) ∨
      (∃ b, i = .absorb b ∧ s.phase ≠ .finalized ∧ s.fill = 63#6 ∧ t.h = compress s.h (s.pending ++ [b])) ∨
      (i = .final ∧ s.phase ≠ .finalized) := by
  rcases exec_cases i s with ⟨-, -, hexec⟩ | ⟨u, hexec, -, hlive, heffect⟩
  · obtain rfl := Host.Outcome.next.inj (hexec.symm.trans h)
    exact absurd (State.raise_h _ _) hne
  · obtain rfl := Host.Outcome.next.inj (hexec.symm.trans h)
    cases i with
    | ctxnew =>
      obtain rfl := heffect
      exact .inl ⟨rfl, (State.ctxnew_isFresh ..).h⟩
    | touch =>
      obtain rfl := heffect
      exact absurd (State.respond_h ..) hne
    | absorb b =>
      obtain rfl := heffect
      rw [State.respond_h, State.absorb_h] at hne
      by_cases hf : s.fill = 63#6
      · refine .inr (.inl ⟨b, rfl, hlive.resolve_left (by simp), hf, ?_⟩)
        rw [State.respond_h, State.absorb_h, if_pos hf]
      · exact absurd (if_neg hf) hne
    | final => exact .inr (.inr ⟨rfl, hlive.resolve_left (by simp)⟩)

/-- Settles O24: a word that changes H is the word of one of H's writers; the other events are resets. -/
theorem chainWrittenOnlyByItsWriters : Obligations.ChainWrittenOnlyByItsWriters := by
  intro s t e h hne
  cases e with
  | command w =>
    rcases runWord_cases w s with ⟨i, hdec, hrun⟩ | ⟨-, -, hrun⟩
    · have hw := encode_of_decode hdec
      rcases exec_writers_of_h (hrun.symm.trans h) hne with ⟨rfl, hh⟩ | ⟨b, rfl, hdrain⟩ | ⟨rfl, hp⟩
      · exact .inl ⟨hh, .inr (.inl (congrArg _ hw.symm))⟩
      · exact .inr (.inl ⟨b, congrArg _ hw.symm, hdrain⟩)
      · exact .inr (.inr ⟨congrArg _ hw.symm, hp⟩)
    · obtain rfl := Host.Outcome.next.inj (hrun.symm.trans h)
      exact absurd (State.raise_h _ _) hne
  | reset =>
    obtain rfl := Host.Outcome.next.inj h
    exact .inl ⟨s.assertReset_isFresh.h, .inl rfl⟩
  | commandCutByReset w =>
    obtain rfl := Host.Outcome.next.inj h
    exact .inl ⟨s.assertReset_isFresh.h, .inr (.inr ⟨w, rfl⟩)⟩

end Sys2Proof.Machine

/-! PROOFS. Engines that agree on what counts answer alike (R33, R36, R38, R161). -/

namespace Sys2Proof.Machine

/-- From `s` and from `t`, `f` goes on to states that agree on what counts, with the same new responses. -/
def AnswersAlike (f : State → Result) (s t : State) : Prop :=
  ∃ s' t' rs, f s = .next s' ∧ f t = .next t' ∧ s'.SameFuture t' ∧
    s'.responses = s.responses ++ rs ∧ t'.responses = t.responses ++ rs

@[simp] theorem State.respond_sameFuture (s t : State) (st : Status) (d : BitVec 160) :
    (s.respond st d).SameFuture (t.respond st d) ↔ s.SameFuture t := by
  simp [State.SameFuture]

theorem State.SameFuture.inputs_eq {s t : State} (h : s.SameFuture t) : s.inputs = t.inputs := h.1

/-- Neither or both are finalized. -/
theorem State.SameFuture.finalized_iff {s t : State} (h : s.SameFuture t) :
    s.phase = .finalized ↔ t.phase = .finalized := by
  obtain ⟨-, ⟨hs, ht⟩ | ⟨hs, ht, -⟩⟩ := h
  · simp [hs, ht]
  · simp [hs, ht]

/-- What agreement says of two engines that are not finalized. -/
theorem State.SameFuture.context_eq {s t : State} (h : s.SameFuture t) (hp : s.phase ≠ .finalized) :
    s.h = t.h ∧ s.len = t.len ∧ s.fill = t.fill ∧ s.pending = t.pending := by
  obtain ⟨-, ⟨hs, -⟩ | ⟨-, -, heq⟩⟩ := h
  · exact absurd hs hp
  · exact heq

/-- Taking the same events off both queues keeps the agreement. -/
theorem State.SameFuture.set_inputs {s t : State} (h : s.SameFuture t) (q : List HostEvent) :
    ({ s with inputs := q } : State).SameFuture { t with inputs := q } := by
  obtain ⟨-, hctx⟩ := h
  exact ⟨rfl, by simpa using hctx⟩

theorem State.SameFuture.touch {s t : State} (h : s.SameFuture t) (hp : s.phase ≠ .finalized) :
    ({ s with phase := .accumulating } : State).SameFuture { t with phase := .accumulating } := by
  refine ⟨h.inputs_eq, .inr ⟨by simp, by simp, ?_⟩⟩
  simpa using h.context_eq hp

/-- ABSORB computes everything that counts from what counts. -/
theorem State.SameFuture.absorb {s t : State} (b : Byte) (h : s.SameFuture t) (hp : s.phase ≠ .finalized) :
    ({ (s.takeByte b).advanceFill with phase := .accumulating } : State).SameFuture
      { (t.takeByte b).advanceFill with phase := .accumulating } := by
  obtain ⟨hh, hlen, hfill, hpending⟩ := h.context_eq hp
  obtain ⟨-, hin_s, hlen_s, -⟩ := (s.takeByte b).advanceFill_frame
  obtain ⟨-, hin_t, hlen_t, -⟩ := (t.takeByte b).advanceFill_frame
  refine ⟨?_, .inr ⟨by simp, by simp, ?_, ?_, ?_, ?_⟩⟩
  · rw [hin_s, hin_t, State.takeByte_inputs, State.takeByte_inputs, h.inputs_eq]
  · rw [State.absorb_h, State.absorb_h, hh, hfill, hpending]
  · rw [hlen_s, hlen_t, State.takeByte_len, State.takeByte_len, hlen]
  · rw [State.advanceFill_fill, State.advanceFill_fill, State.takeByte_fill, State.takeByte_fill, hfill]
  · simp only [State.pending_of_phase, State.absorb_pending, hfill, hpending]

/-- Delivering the same response from states that agree. -/
theorem answersAlike_of_respond {f : State → Result} {s t u v : State} {st : Status} {d : BitVec 160}
    (hs : f s = .next (u.respond st d)) (ht : f t = .next (v.respond st d)) (h : u.SameFuture v)
    (hu : u.responses = s.responses) (hv : v.responses = t.responses) : AnswersAlike f s t :=
  ⟨_, _, [⟨st, d⟩], hs, ht, (State.respond_sameFuture ..).2 h, by simp [hu], by simp [hv]⟩

/-- FINAL answers a digest of what counts, and leaves two finalized engines. -/
theorem exec_final_answersAlike {s t : State} (h : s.SameFuture t) (hs : s.phase ≠ .finalized) :
    AnswersAlike (exec .final) s t := by
  obtain ⟨hh, hlen, hfill, hpending⟩ := h.context_eq hs
  obtain ⟨u, hu, hup, -, huin, hur⟩ := exec_final_of_live hs
  obtain ⟨v, hv, hvp, -, hvin, hvr⟩ := exec_final_of_live (mt h.finalized_iff.2 hs)
  rw [hh, hlen, hfill, hpending] at hur
  exact ⟨u, v, _, hu, hv, ⟨by rw [huin, hvin, h.inputs_eq], .inl ⟨hup, hvp⟩⟩, hur, hvr⟩

/-- Every command answers alike. -/
theorem exec_answersAlike (i : Instr) {s t : State} (h : s.SameFuture t) : AnswersAlike (exec i) s t := by
  by_cases hi : i = .ctxnew
  · subst hi
    refine ⟨_, _, [⟨.ok, 0#160⟩], exec_ctxnew s, exec_ctxnew t, ?_, by simp, by simp⟩
    exact (State.ctxnew_isFresh ..).sameFuture (State.ctxnew_isFresh ..) (by simp [h.inputs_eq])
  by_cases hs : s.phase = .finalized
  · exact answersAlike_of_respond (exec_of_finalized hi hs) (exec_of_finalized hi (h.finalized_iff.1 hs)) h rfl rfl
  have ht : t.phase ≠ .finalized := mt h.finalized_iff.2 hs
  cases i with
  | ctxnew => exact absurd rfl hi
  | touch => exact answersAlike_of_respond (exec_touch_of_live hs) (exec_touch_of_live ht) (h.touch hs) rfl rfl
  | absorb b =>
    refine answersAlike_of_respond (exec_absorb_of_live b hs) (exec_absorb_of_live b ht) (h.absorb b hs) ?_ ?_
    · simp [State.advanceFill_frame]
    · simp [State.advanceFill_frame]
  | final => exact exec_final_answersAlike h hs

/-- Reset makes both contexts fresh, and answers nothing. -/
theorem assertReset_answersAlike {s t : State} (h : s.SameFuture t) :
    AnswersAlike (fun s => .next s.assertReset) s t := by
  refine ⟨_, _, [], rfl, rfl, ?_, by simp, by simp⟩
  exact s.assertReset_isFresh.sameFuture t.assertReset_isFresh (by simp [h.inputs_eq])

/-- Every host event is answered alike: the decoder sees the word alone (R80). -/
theorem runEvent_answersAlike (e : HostEvent) {s t : State} (h : s.SameFuture t) : AnswersAlike (runEvent e) s t := by
  cases e with
  | command w =>
    cases hw : decode w with
    | command i => simpa only [AnswersAlike, runEvent, runWord, hw] using exec_answersAlike i h
    | illegal why =>
      have hrun (u : State) : runEvent (.command w) u = .next (u.raise .illegal) := by simp only [runEvent, runWord, hw]
      exact answersAlike_of_respond (hrun s) (hrun t) h rfl rfl
  | reset => exact assertReset_answersAlike h
  | commandCutByReset w => exact assertReset_answersAlike h

/-- Settles O28: both engines take the same event, if any waits. -/
theorem responsesIgnoreUnspecifiedState : Obligations.ResponsesIgnoreUnspecifiedState := by
  intro s t h
  cases hq : s.inputs with
  | nil =>
    exact ⟨s, t, [], by rw [step, hq], by rw [step, ← h.inputs_eq, hq], h, by simp, by simp⟩
  | cons e rest =>
    have hstep_s : step s = runEvent e { s with inputs := rest } := by rw [step, hq]
    have hstep_t : step t = runEvent e { t with inputs := rest } := by rw [step, ← h.inputs_eq, hq]
    rw [hstep_s, hstep_t]
    exact runEvent_answersAlike e (h.set_inputs rest)

end Sys2Proof.Machine

/-! PROOFS. The block buffer from outside: which events define its bytes (R53, R162), and the words it is read as
(R54). -/

namespace Sys2Proof.Machine

/-! ### Where a defined byte comes from -/

/-- No byte of a fresh context is defined. -/
theorem State.IsFresh.read?_ne_some {s : State} (hs : s.IsFresh) (k : Nat) (v : Byte) :
    Memory.read? s.buf k ≠ some v := by
  simp [hs.buf]

/-- What ABSORB leaves defined at index `k`: nothing after a drain, else the absorbed byte at FILL and every other byte
as before. -/
theorem State.absorb_read? (s : State) (b : Byte) (k : Nat) :
    Memory.read? (s.takeByte b).advanceFill.buf k =
      if s.fill = 63#6 then none else if k = s.fill.toNat then some b else Memory.read? s.buf k := by
  rw [State.absorb_buf]
  split
  · rfl
  · rw [Memory.writeBytes, Memory.writeBytes, bufIndex_of_lt s.fill.isLt, Memory.read?_write]

/-- A byte defined after a command was defined before, or the command is the ABSORB of that byte at index FILL. -/
theorem exec_defined_byte {i : Instr} {s t : State} {k : Nat} {v : Byte} (h : exec i s = .next t)
    (hv : Memory.read? t.buf k = some v) :
    Memory.read? s.buf k = some v ∨ (i = .absorb v ∧ k = s.fill.toNat ∧ s.phase ≠ .finalized) := by
  rcases exec_cases i s with ⟨-, -, hexec⟩ | ⟨u, hexec, -, hlive, heffect⟩
  · obtain rfl := Host.Outcome.next.inj (hexec.symm.trans h)
    exact .inl (s.raise_buf .misuse ▸ hv)
  · obtain rfl := Host.Outcome.next.inj (hexec.symm.trans h)
    cases i with
    | ctxnew =>
      obtain rfl := heffect
      exact absurd hv ((State.ctxnew_isFresh ..).read?_ne_some k v)
    | touch =>
      obtain rfl := heffect
      rw [State.respond_buf] at hv
      exact .inl hv
    | absorb b =>
      obtain rfl := heffect
      rw [State.respond_buf, State.absorb_read?] at hv
      split at hv
      · cases hv
      split at hv
      · next hk =>
        obtain rfl := Option.some.inj hv
        exact .inr ⟨rfl, hk, hlive.resolve_left (by simp)⟩
      · exact .inl hv
    | final =>
      obtain ⟨-, hbuf, -⟩ := heffect
      rw [hbuf] at hv
      cases hv

/-- Settles O25: of a command word that is `exec_defined_byte`; an illegal word leaves BUF alone, and a reset leaves no
byte defined. -/
theorem bufferBytesComeFromAbsorb : Obligations.BufferBytesComeFromAbsorb := by
  intro s t e k v h hv
  cases e with
  | command w =>
    rcases runWord_cases w s with ⟨i, hdec, hrun⟩ | ⟨-, -, hrun⟩
    · have hw := encode_of_decode hdec
      rcases exec_defined_byte (hrun.symm.trans h) hv with hold | ⟨rfl, hnew⟩
      · exact .inl hold
      · exact .inr ⟨congrArg _ hw.symm, hnew⟩
    · obtain rfl := Host.Outcome.next.inj (hrun.symm.trans h)
      exact .inl (s.raise_buf .illegal ▸ hv)
  | reset =>
    obtain rfl := Host.Outcome.next.inj h
    exact absurd hv (s.assertReset_isFresh.read?_ne_some k v)
  | commandCutByReset w =>
    obtain rfl := Host.Outcome.next.inj h
    exact absurd hv (s.assertReset_isFresh.read?_ne_some k v)

/-! ### The word view -/

/-- Byte `k` of the block that COMPRESS reads is `BUF[k]`. -/
theorem blockByte_memRead (s : State) {k : Nat} (hk : k < 64) : blockByte (s.memRead 0 64) k = s.bufByte k := by
  rw [blockByte, List.getD_eq_getElem?_getD, State.getElem?_memRead _ _ _ _ hk, Nat.zero_add, Option.getD_some]

/-- Settles O47: the four bytes of a word are in the block, and `W32`'s sum does not overflow. -/
theorem wordViewIsLittleEndian : Obligations.WordViewIsLittleEndian := by
  intro s i
  have hi := i.isLt
  rw [wordView, toNat_w32, blockByte_memRead s (by omega), blockByte_memRead s (by omega),
    blockByte_memRead s (by omega), blockByte_memRead s (by omega)]

end Sys2Proof.Machine

/-! PROOFS. A step runs the command that the oldest waiting word decodes to (R60, R79, R80). -/

namespace Sys2Proof

theorem Decoded.instr?_eq_some_iff {d : Decoded} {i : Instr} : d.instr? = some i ↔ d = .command i := by
  cases d with
  | command j => simp [Decoded.instr?]
  | illegal why => simp [Decoded.instr?]

end Sys2Proof

namespace Sys2Proof.Machine

/-- A word that decodes to a command is run as that command. -/
theorem runWord_of_decode {w : Cmd} {i : Instr} (s : State) (hdec : decode w = .command i) :
    runWord w s = exec i s := by
  rw [runWord, hdec]

/-- With an event waiting, a step is that event on the state without it. -/
theorem step_of_inputs {s : State} {e : HostEvent} {rest : List HostEvent} (hq : s.inputs = e :: rest) :
    step s = runEvent e { s with inputs := rest } := by
  rw [step, hq]

/-- Settles O8: the step takes the word off the queue and runs what it decodes to. -/
theorem stepRunsTheDecodedCommand : Obligations.StepRunsTheDecodedCommand := by
  refine ⟨fun s w i rest hq hdec => ?_, fun s w i hdec => ?_⟩
  · rw [step_of_inputs hq, runEvent, runWord_of_decode _ hdec]
  · rw [step_withFetchWord, runWord_of_decode s (Decoded.instr?_eq_some_iff.1 hdec)]

end Sys2Proof.Machine

/-! PROOFS. The decoder and the encoder are inverse, and the illegal words are those that R74 lists. -/

namespace Sys2Proof

/-! ### Decoding a command's word (R72, R80) -/

/-- Every command's word decodes to it, with all 256 values of ABSORB's byte. -/
theorem decode_encode (i : Instr) : decode (encode i) = .command i := by
  cases i with
  | ctxnew => rfl
  | touch => rfl
  | absorb b => rw [decode, if_pos (opcodeOf_encode_absorb b), immOf_encode_absorb]
  | final => rfl

/-- Settles O5: `decode_encode` and its converse `encode_of_decode`. -/
theorem decodeAndEncodeAgree : Obligations.DecodeAndEncodeAgree := by
  intro w i _
  constructor
  · exact encode_of_decode
  · rintro rfl
    exact decode_encode i

/-! ### The legal words (R74) -/

/-- The four patterns, as conditions on the word. -/
theorem legalWord_iff_patterns (w : Cmd) :
    legalWord w = true ↔ w = 0x0100#16 ∨ w = 0x0200#16 ∨ w &&& 0xFF00#16 = 0x0300#16 ∨ w = 0x0400#16 := by
  simp only [legalWord, patterns, Pattern.fits, and_full_mask, List.any_cons, List.any_nil, Bool.or_false,
    Bool.or_eq_true, beq_iff_eq]

/-- ABSORB's pattern asks for its opcode alone. -/
theorem opcodeOf_of_fits_absorb {w : Cmd} (h : w &&& 0xFF00#16 = 0x0300#16) : opcodeOf w = 0x03#8 := by
  rw [and_opcode_mask] at h
  generalize opcodeOf w = op at h
  bv_omega

/-- The legal words are those that decode to a command. -/
theorem legalWord_iff_decodes (w : Cmd) : legalWord w = true ↔ ∃ i, decode w = .command i := by
  constructor
  · intro h
    rcases (legalWord_iff_patterns w).1 h with rfl | rfl | habsorb | rfl
    · exact ⟨_, decode_encode .ctxnew⟩
    · exact ⟨_, decode_encode .touch⟩
    · exact ⟨_, if_pos (opcodeOf_of_fits_absorb habsorb)⟩
    · exact ⟨_, decode_encode .final⟩
  · rintro ⟨i, hdec⟩
    exact legalWord_of_decode hdec

/-- The illegal words are those that the decoder refuses. -/
theorem legalWord_eq_false_iff_refused (w : Cmd) : legalWord w = false ↔ ∃ why, decode w = .illegal why := by
  rw [← Bool.not_eq_true, legalWord_iff_decodes]
  cases decode w with
  | command i => simp
  | illegal why => simp

theorem bareCommand_refuses_iff (i : Instr) (imm : Byte) :
    (∃ why, bareCommand i imm = .illegal why) ↔ imm ≠ 0x00#8 := by
  rw [bareCommand]
  split
  · next hzero => simp [hzero]
  · next hne => simp [hne]

/-- An opcode that is none of the four is 0x00 or at least 0x05. -/
theorem reserved_opcode {op : Byte} (h1 : op ≠ 0x01#8) (h2 : op ≠ 0x02#8) (h3 : op ≠ 0x03#8) (h4 : op ≠ 0x04#8) :
    op = 0x00#8 ∨ 0x05#8 ≤ op := by
  bv_omega

/-- The decoder refuses a reserved opcode, and a command without operand whose immediate is not 0. -/
theorem decode_refuses_iff (w : Cmd) :
    (∃ why, decode w = .illegal why) ↔
      ((opcodeOf w = 0x00#8 ∨ 0x05#8 ≤ opcodeOf w) ∨
        ((opcodeOf w = 0x01#8 ∨ opcodeOf w = 0x02#8 ∨ opcodeOf w = 0x04#8) ∧ immOf w ≠ 0x00#8)) := by
  rw [decode]
  split
  · next h3 => simp [h3]
  split
  · next h1 => simp [bareCommand_refuses_iff, h1]
  split
  · next h2 => simp [bareCommand_refuses_iff, h2]
  split
  · next h4 => simp [bareCommand_refuses_iff, h4]
  · next h3 h1 h2 h4 => simp [reserved_opcode h1 h2 h3 h4]

/-! ### Counting them -/

/-- The legal words as numbers: CTXNEW's, TOUCH's, the 256 of ABSORB and, next to them, FINAL's. -/
def legalNumbers : Finset Nat := {0x0100, 0x0200} ∪ Finset.Icc 0x0300 0x0400

theorem card_legalNumbers : legalNumbers.card = 259 := by
  rw [legalNumbers, Finset.card_union_of_disjoint, Nat.card_Icc]
  · rfl
  · simp

theorem mem_legalNumbers {n : Nat} :
    n ∈ legalNumbers ↔ (n = 0x0100 ∨ n = 0x0200) ∨ 0x0300 ≤ n ∧ n ≤ 0x0400 := by
  simp [legalNumbers, or_assoc]

/-- A word is legal when its number is listed. -/
theorem legalWord_iff_toNat (w : Cmd) : legalWord w = true ↔ w.toNat ∈ legalNumbers := by
  have hrefused := (legalWord_eq_false_iff_refused w).trans (decode_refuses_iff w)
  rw [← Bool.not_eq_false, hrefused, mem_legalNumbers, word_eq_fields w]
  generalize opcodeOf w = op
  generalize immOf w = imm
  bv_omega

/-- The legal ones among all 65536 numbers. -/
theorem filter_legalWord :
    ((Finset.range 65536).filter fun n => legalWord (BitVec.ofNat 16 n) = true) = legalNumbers := by
  ext n
  rw [Finset.mem_filter, Finset.mem_range, legalWord_iff_toNat, BitVec.toNat_ofNat]
  constructor
  · rintro ⟨hn, hlegal⟩
    rwa [Nat.mod_eq_of_lt hn] at hlegal
  · intro hlegal
    have hn : n < 65536 := by
      rw [mem_legalNumbers] at hlegal
      omega
    exact ⟨hn, by rwa [Nat.mod_eq_of_lt hn]⟩

/-- 259 words are legal. -/
theorem card_legalWords : ((Finset.range 65536).filter fun n => legalWord (BitVec.ofNat 16 n) = true).card = 259 := by
  rw [filter_legalWord, card_legalNumbers]

/-- Where a Boolean test holds of `k` of a set's `k + l` elements, it fails of `l`. Stated for all sets: the kernel would
evaluate a sum or a difference of closed cardinalities. -/
theorem card_filter_eq_false {s : Finset Nat} {p : Nat → Bool} {k l : Nat}
    (htrue : (s.filter fun n => p n = true).card = k) (hs : s.card = k + l) :
    (s.filter fun n => p n = false).card = l := by
  have htotal := Finset.card_filter_add_card_filter_not (s := s) (fun n => p n = true)
  simp only [Bool.not_eq_true] at htotal
  omega

/-- The other 65277 of the 65536 words are illegal. -/
theorem card_illegalWords :
    ((Finset.range 65536).filter fun n => legalWord (BitVec.ofNat 16 n) = false).card = 65277 :=
  card_filter_eq_false card_legalWords (Finset.card_range 65536)

/-- Settles O6: the illegal words are those that the decoder refuses, by its own tests, and the legal ones are counted
by their numbers. -/
theorem illegalWordsAreExactlyTheReservedOnes : Obligations.IllegalWordsAreExactlyTheReservedOnes :=
  ⟨fun w => (legalWord_eq_false_iff_refused w).trans (decode_refuses_iff w), legalWord_eq_false_iff_refused,
    card_legalWords, card_illegalWords⟩

/-- Settles O7: eleven closed words, decided one by one. -/
theorem sampleWordsDecode : Obligations.SampleWordsDecode := by
  unfold Obligations.SampleWordsDecode
  decide

end Sys2Proof

/-! PROOFS. What each event adds to the responses: one response per accepted word, and a digest in FINAL's alone
(R76, R78, R212, R215). -/

namespace Sys2Proof.Machine

/-- From `s` to `t` one response is added, with digest 0. -/
def AddsZeroDigest (s t : State) : Prop := ∃ st, t.responses = s.responses ++ [⟨st, 0#160⟩]

/-- From `s` to `t` a context is finalized, and one response is added, OK with a digest. -/
def AddsFinalDigest (s t : State) : Prop :=
  s.phase ≠ .finalized ∧ t.phase = .finalized ∧ ∃ d, t.responses = s.responses ++ [⟨.ok, d⟩]

theorem State.addsZeroDigest_raise (s : State) (st : Status) : AddsZeroDigest s (s.raise st) :=
  ⟨st, State.raise_responses s st⟩

/-- A command adds one response; only FINAL's carries a digest. -/
theorem exec_response {i : Instr} {s t : State} (h : exec i s = .next t) :
    AddsZeroDigest s t ∨ (i = .final ∧ AddsFinalDigest s t) := by
  rcases exec_cases i s with ⟨-, -, hexec⟩ | ⟨u, hexec, -, hlive, heffect⟩
  · obtain rfl := Host.Outcome.next.inj (hexec.symm.trans h)
    exact .inl (s.addsZeroDigest_raise .misuse)
  · obtain rfl := Host.Outcome.next.inj (hexec.symm.trans h)
    cases i with
    | ctxnew =>
      obtain rfl := heffect
      exact .inl ⟨.ok, by simp⟩
    | touch =>
      obtain rfl := heffect
      exact .inl ⟨.ok, by simp⟩
    | absorb b =>
      obtain rfl := heffect
      exact .inl ⟨.ok, by simp [State.advanceFill_frame]⟩
    | final =>
      obtain ⟨hphase, -, hresp⟩ := heffect
      exact .inr ⟨rfl, hlive.resolve_left (by simp), hphase, _, hresp⟩

/-- An accepted word adds one response; only that of FINAL's word carries a digest. -/
theorem runWord_response {w : Cmd} {s t : State} (h : runWord w s = .next t) :
    AddsZeroDigest s t ∨ (w = 0x0400#16 ∧ AddsFinalDigest s t) := by
  rcases runWord_cases w s with ⟨i, hdec, hrun⟩ | ⟨-, -, hrun⟩
  · rcases exec_response (hrun.symm.trans h) with hzero | ⟨rfl, hfinal⟩
    · exact .inl hzero
    · exact .inr ⟨(encode_of_decode hdec).symm, hfinal⟩
  · obtain rfl := Host.Outcome.next.inj (hrun.symm.trans h)
    exact .inl (s.addsZeroDigest_raise .illegal)

/-- An event that is no accepted word has the effect of reset, a command cut short by reset included (R212). -/
theorem eq_assertReset_of_runEvent {e : HostEvent} {s t : State} (he : ¬ ∃ w, e = .command w)
    (h : runEvent e s = .next t) : t = s.assertReset := by
  cases e with
  | command w => exact absurd ⟨w, rfl⟩ he
  | reset => exact (Host.Outcome.next.inj h).symm
  | commandCutByReset w => exact (Host.Outcome.next.inj h).symm

/-- Settles O26: of a command word that is `runWord_response`; a reset adds no response. -/
theorem digestLeavesOnlyInFinal : Obligations.DigestLeavesOnlyInFinal := by
  intro s t e h
  by_cases he : ∃ w, e = .command w
  · obtain ⟨w, rfl⟩ := he
    rcases runWord_response h with hzero | ⟨rfl, hfinal⟩
    · exact .inr (.inl hzero)
    · exact .inr (.inr ⟨rfl, hfinal⟩)
  · obtain rfl := eq_assertReset_of_runEvent he h
    exact .inl s.assertReset_responses

/-! ### One response per accepted word -/

theorem runWord_adds_one_response {w : Cmd} {s t : State} (h : runWord w s = .next t) :
    ∃ r, t.responses = s.responses ++ [r] := by
  rcases runWord_response h with ⟨st, hresp⟩ | ⟨-, -, -, d, hresp⟩
  · exact ⟨_, hresp⟩
  · exact ⟨_, hresp⟩

/-- No command changes the host's queue. -/
theorem exec_inputs {i : Instr} {s t : State} (h : exec i s = .next t) : t.inputs = s.inputs := by
  rcases exec_cases i s with ⟨-, -, hexec⟩ | ⟨u, hexec, hin, -⟩
  · obtain rfl := Host.Outcome.next.inj (hexec.symm.trans h)
    exact s.raise_inputs .misuse
  · obtain rfl := Host.Outcome.next.inj (hexec.symm.trans h)
    exact hin

/-- No event changes the events that wait behind it. -/
theorem runEvent_inputs {e : HostEvent} {s t : State} (h : runEvent e s = .next t) : t.inputs = s.inputs := by
  by_cases he : ∃ w, e = .command w
  · obtain ⟨w, rfl⟩ := he
    rcases runWord_cases w s with ⟨i, -, hrun⟩ | ⟨-, -, hrun⟩
    · exact exec_inputs (hrun.symm.trans h)
    · obtain rfl := Host.Outcome.next.inj (hrun.symm.trans h)
      exact s.raise_inputs .illegal
  · obtain rfl := eq_assertReset_of_runEvent he h
    exact s.assertReset_inputs

/-- Settles O12: the step is its event on the state without it, which has given the same responses. -/
theorem oneResponsePerAcceptedWordInOrder : Obligations.OneResponsePerAcceptedWordInOrder := by
  intro s t e rest hq h
  rw [step_of_inputs hq] at h
  refine ⟨runEvent_inputs h, ?_, fun hreset => ?_⟩
  · rintro ⟨w, rfl⟩
    exact runWord_adds_one_response (s := { s with inputs := rest }) h
  · obtain rfl := eq_assertReset_of_runEvent hreset h
    exact State.assertReset_responses _

end Sys2Proof.Machine

/-! PROOFS. The digest on the response port: its bytes and its words (R78, R166). -/

namespace Sys2Proof.Machine

/-- The number without its low `k` bytes is that of the bytes after the first `k`. -/
theorem littleEndian_div_two_pow (bytes : List Byte) (k : Nat) :
    littleEndian bytes / 2 ^ (8 * k) = littleEndian (bytes.drop k) := by
  induction bytes generalizing k with
  | nil => simp [littleEndian]
  | cons b bytes ih =>
    cases k with
    | zero => simp
    | succ k =>
      have hb := b.isLt
      have hfirst : littleEndian (b :: bytes) / 2 ^ 8 = littleEndian bytes := by
        rw [littleEndian]
        omega
      rw [List.drop_succ_cons, ← ih, ← hfirst, Nat.div_div_eq_div_mul, ← pow_add, Nat.mul_succ, Nat.add_comm]

/-- The low bits of the number are its first bytes. -/
theorem littleEndian_mod_two_pow (bytes : List Byte) (n : Nat) :
    littleEndian bytes % 2 ^ (8 * n) = littleEndian (bytes.take n) := by
  induction bytes generalizing n with
  | nil => simp [littleEndian]
  | cons b bytes ih =>
    cases n with
    | zero => simp [littleEndian, Nat.mod_one]
    | succ n =>
      have hb := b.isLt
      rw [List.take_succ_cons, littleEndian, littleEndian, ← ih, Nat.mul_succ, Nat.add_comm (8 * n), pow_add,
        Nat.mod_mul]
      congr 1
      · omega
      · congr 2
        omega

/-- The twenty bytes fit the field. -/
theorem toNat_digestField {bytes : List Byte} (hlen : bytes.length = 20) :
    (digestField bytes).toNat = littleEndian bytes := by
  have hall := littleEndian_mod_two_pow bytes 20
  rw [List.take_of_length_le hlen.le] at hall
  rw [digestField, BitVec.toNat_ofNat, hall]

/-- Bits `8k + 8n - 1` to `8k` of the digest field are the `n` bytes from byte `k` on. -/
theorem toNat_extract_digestField {bytes : List Byte} (hlen : bytes.length = 20) (k n : Nat) :
    ((digestField bytes).extractLsb' (8 * k) (8 * n)).toNat = littleEndian ((bytes.drop k).take n) := by
  rw [BitVec.extractLsb'_toNat, Nat.shiftRight_eq_div_pow, toNat_digestField hlen, littleEndian_div_two_pow,
    littleEndian_mod_two_pow]

/-- Byte `k` of the digest is bits `8k + 7` to `8k` of the field. -/
theorem getElem?_eq_extract_digestField {bytes : List Byte} (hlen : bytes.length = 20) {k : Nat} (hk : k < 20) :
    bytes[k]? = some ((digestField bytes).extractLsb' (8 * k) 8) := by
  have hk' : k < bytes.length := by omega
  have hbyte := toNat_extract_digestField hlen k 1
  rw [List.drop_eq_getElem_cons hk', List.take_succ_cons, List.take_zero, littleEndian, littleEndian] at hbyte
  rw [List.getElem?_eq_getElem hk', ← BitVec.eq_of_toNat_eq hbyte]

/-- The four bytes of a word, as a number, are the word. -/
theorem littleEndian_le32 (w : Word) : littleEndian (le32 w) = w.toNat := by
  have hsum := toNat_w32 (w.extractLsb' 0 8) (w.extractLsb' 8 8) (w.extractLsb' 16 8) (w.extractLsb' 24 8)
  rw [w32_extract_bytes] at hsum
  rw [hsum]
  simp only [le32, littleEndian]
  omega

/-- SERIALIZE puts word `i` of the chain at bytes `4i` to `4i + 3`. -/
theorem serialize_word (h : Chain) (i : Fin 5) : ((serialize h).drop (4 * i.val)).take 4 = le32 (h.get i) := by
  fin_cases i <;> rfl

/-- Word `i` of the chain is bits `32i + 31` to `32i` of the field. -/
theorem extract_digestField_serialize (h : Chain) (i : Fin 5) :
    (digestField (serialize h)).extractLsb' (32 * i.val) 32 = h.get i := by
  have hword := toNat_extract_digestField (bytes := serialize h) rfl (4 * i.val) 4
  rw [serialize_word, littleEndian_le32, ← Nat.mul_assoc] at hword
  exact BitVec.eq_of_toNat_eq hword

/-- Settles O49: the digest field by its bytes and by its words. -/
theorem digestPortCarriesTheChain : Obligations.DigestPortCarriesTheChain := fun h =>
  ⟨fun k => getElem?_eq_extract_digestField rfl k.isLt, extract_digestField_serialize h⟩

end Sys2Proof.Machine

/-! PROOFS. The port samples and the host events they make (R70, R79, R212, R213). -/

namespace Sys2Proof.Machine

/-- The words accepted in a run of cycles, in order. -/
def acceptedWords (ps : List PortSample) : List Cmd := (ps.filter PortSample.accepts).map PortSample.cmd

/-- How many responses are delivered in a run of cycles. -/
def deliveries (ps : List PortSample) : Nat := (ps.filter PortSample.delivers).length

theorem acceptedWords_cons (p : PortSample) (ps : List PortSample) :
    acceptedWords (p :: ps) = acceptedWords [p] ++ acceptedWords ps := by
  rw [← List.singleton_append, acceptedWords, List.filter_append, List.map_append, acceptedWords, acceptedWords]

theorem deliveries_cons (p : PortSample) (ps : List PortSample) :
    deliveries (p :: ps) = deliveries [p] + deliveries ps := by
  rw [← List.singleton_append, deliveries, List.filter_append, List.length_append, deliveries, deliveries]

/-- One cycle without reset: the accepted word, if there is one, joins the open words, and for a delivered response the
oldest open word comes out as a command. -/
theorem eventsOfSamples_cons_of_no_reset (opened : List Cmd) {p : PortSample} (ps : List PortSample)
    (hp : p.rst = false) :
    eventsOfSamples opened (p :: ps) =
      ((opened ++ acceptedWords [p]).take (deliveries [p])).map .command ++
        eventsOfSamples ((opened ++ acceptedWords [p]).drop (deliveries [p])) ps := by
  have hnow : (if p.accepts then opened ++ [p.cmd] else opened) = opened ++ acceptedWords [p] := by
    by_cases ha : p.accepts
    · simp [acceptedWords, ha]
    · simp [acceptedWords, ha]
  rw [eventsOfSamples, hp, if_neg Bool.false_ne_true, hnow]
  by_cases hd : p.delivers
  · simp [deliveries, hd]
  · simp [deliveries, hd]

/-- A cycle of reset cuts every open word and accepts none. -/
theorem eventsOfSamples_cons_of_reset (opened : List Cmd) {p : PortSample} (ps : List PortSample) (hp : p.rst = true) :
    eventsOfSamples opened (p :: ps) = opened.map .commandCutByReset ++ .reset :: eventsOfSamples [] ps := by
  rw [eventsOfSamples, if_pos hp]

/-! ### Without reset -/

/-- Without reset the open words and then the accepted ones come out as commands, whenever their responses are
delivered. -/
theorem eventsOfSamples_of_no_reset (opened : List Cmd) (ps : List PortSample) (hps : ∀ p ∈ ps, p.rst = false) :
    eventsOfSamples opened ps = (opened ++ acceptedWords ps).map .command := by
  induction ps generalizing opened with
  | nil => simp [eventsOfSamples, acceptedWords]
  | cons p ps ih =>
    obtain ⟨hp, hrest⟩ := List.forall_mem_cons.1 hps
    rw [eventsOfSamples_cons_of_no_reset opened ps hp, ih _ hrest, ← List.map_append, ← List.append_assoc,
      List.take_append_drop, acceptedWords_cons p ps, List.append_assoc]

/-- Settles O51: at the start no word is open. -/
theorem portsNeverDropOrReorder : Obligations.PortsNeverDropOrReorder :=
  fun ps hps => eventsOfSamples_of_no_reset [] ps hps

/-! ### A reset after cycles without one -/

/-- The first `n` words come out as commands, and the rest are cut. -/
def cutAfter (n : Nat) (words : List Cmd) : List HostEvent :=
  (words.take n).map .command ++ (words.drop n).map .commandCutByReset

/-- Commands that come out before count among those that are not cut. -/
theorem take_map_append_cutAfter (d n : Nat) (now later : List Cmd) :
    (now.take d).map .command ++ cutAfter n (now.drop d ++ later) = cutAfter (min d now.length + n) (now ++ later) := by
  have htake : now.take d = (now ++ later).take (min d now.length) := by
    rw [List.take_append_of_le_length (Nat.min_le_right ..), ← List.take_eq_take_min]
  have hdrop : now.drop d ++ later = (now ++ later).drop (min d now.length) := by
    rw [List.drop_append_of_le_length (Nat.min_le_right ..), ← List.drop_eq_drop_min]
  rw [cutAfter, cutAfter, htake, hdrop, List.drop_drop, List.take_add, List.map_append, List.append_assoc]

/-- At no time have more responses been delivered than words were open at the start or accepted since. -/
def DeliversOpenWords (opened : Nat) (ps : List PortSample) : Prop :=
  ∀ k ≤ ps.length, deliveries (ps.take k) ≤ opened + (acceptedWords (ps.take k)).length

theorem DeliversOpenWords.head {opened : Nat} {p : PortSample} {ps : List PortSample}
    (h : DeliversOpenWords opened (p :: ps)) : deliveries [p] ≤ opened + (acceptedWords [p]).length :=
  h 1 (by simp)

theorem DeliversOpenWords.tail {opened : Nat} {p : PortSample} {ps : List PortSample}
    (h : DeliversOpenWords opened (p :: ps)) :
    DeliversOpenWords (opened + (acceptedWords [p]).length - deliveries [p]) ps := by
  intro k hk
  have hnext := h (k + 1) (Nat.succ_le_succ hk)
  rw [List.take_succ_cons, deliveries_cons, acceptedWords_cons, List.length_append] at hnext
  omega

/-- The words before a reset: of the open and the accepted ones, a first part comes out as commands, one for each
delivered response at most, and one for each where no response is delivered without an open word. -/
theorem eventsOfSamples_append_reset (opened : List Cmd) (ps qs : List PortSample) {p : PortSample}
    (hps : ∀ q ∈ ps, q.rst = false) (hp : p.rst = true) :
    ∃ n, n ≤ deliveries ps ∧ (DeliversOpenWords opened.length ps → n = deliveries ps) ∧
      eventsOfSamples opened (ps ++ p :: qs) =
        cutAfter n (opened ++ acceptedWords ps) ++ .reset :: eventsOfSamples [] qs := by
  induction ps generalizing opened with
  | nil =>
    refine ⟨0, Nat.le_refl _, fun _ => rfl, ?_⟩
    rw [List.nil_append, eventsOfSamples_cons_of_reset opened qs hp]
    simp [cutAfter, acceptedWords]
  | cons q ps ih =>
    obtain ⟨hq, hrest⟩ := List.forall_mem_cons.1 hps
    obtain ⟨n, hle, heq, hevents⟩ := ih ((opened ++ acceptedWords [q]).drop (deliveries [q])) hrest
    rw [List.length_drop, List.length_append] at heq
    have hcount := deliveries_cons q ps
    refine ⟨min (deliveries [q]) (opened ++ acceptedWords [q]).length + n, by omega, fun hopen => ?_, ?_⟩
    · have hhead := hopen.head
      have hn := heq hopen.tail
      rw [List.length_append]
      omega
    · rw [List.cons_append, eventsOfSamples_cons_of_no_reset opened _ hq, hevents, ← List.append_assoc,
        take_map_append_cutAfter, List.append_assoc opened, ← acceptedWords_cons]

/-- Settles O52: one count of answered words serves both clauses. -/
theorem portsCutOpenCommandsAtReset : Obligations.PortsCutOpenCommandsAtReset := by
  intro opened ps qs p hps hp words answered
  obtain ⟨n, hle, heq, hevents⟩ := eventsOfSamples_append_reset opened ps qs hps hp
  refine ⟨⟨n, hle, hevents⟩, fun hopen => ?_⟩
  have hopen' : DeliversOpenWords opened.length ps := by
    intro k hk
    rw [acceptedWords, List.length_map]
    exact hopen k hk
  rw [hevents, heq hopen']
  rfl

end Sys2Proof.Machine

/-! PROOFS. PAD, its length field, and the padded stream (R91 to R94, R97); padding in place (R95). -/

namespace Sys2Proof.Machine

/-! ### The blocks of PAD (R91) -/

/-- PAD without a spill (R92). -/
theorem pad_of_le {fill : BitVec 6} (len : BitVec 64) (pend : List Byte) (hfill : fill.toNat ≤ 55) :
    pad fill len pend =
      [pend ++ 0x80#8 :: List.replicate (55 - fill.toNat) 0x00#8 ++ le64 (bitLength len)] := by
  rw [pad, if_pos hfill, List.append_assoc pend, List.singleton_append]

/-- PAD with a spill (R93). -/
theorem pad_of_ge {fill : BitVec 6} (len : BitVec 64) (pend : List Byte) (hfill : 56 ≤ fill.toNat) :
    pad fill len pend =
      [pend ++ 0x80#8 :: List.replicate (63 - fill.toNat) 0x00#8,
        List.replicate 56 0x00#8 ++ le64 (bitLength len)] := by
  rw [pad, if_neg (by omega), List.append_assoc pend, List.singleton_append]

theorem length_of_mem_pad {fill : BitVec 6} {len : BitVec 64} {pend p : List Byte} (hpend : pend.length = fill.toNat)
    (hp : p ∈ pad fill len pend) : p.length = 64 := by
  have hlt := fill.isLt
  rcases Nat.lt_or_ge fill.toNat 56 with hfill | hfill
  · rw [pad_of_le len pend (by omega), List.mem_singleton] at hp
    subst hp
    simp
    omega
  · rw [pad_of_ge len pend hfill, List.mem_pair] at hp
    rcases hp with rfl | rfl
    · simp
      omega
    · rfl

/-- Settles O33: the two cases of PAD, and 64 bytes in every block. -/
theorem padBlocksAsDefined : Obligations.PadBlocksAsDefined := fun _ len pend hpend =>
  ⟨pad_of_le len pend, pad_of_ge len pend, fun _ hp => length_of_mem_pad hpend hp⟩

/-! ### The length field (R94) -/

theorem toNat_bitLength (len : BitVec 64) : (bitLength len).toNat = len.toNat * 8 % 2 ^ 64 :=
  BitVec.toNat_mul len 8#64

/-- The three top bits of LEN do not reach the length field. -/
theorem extract_bitLength_high (len : BitVec 64) : (bitLength len).extractLsb' 3 61 = len.extractLsb' 0 61 := by
  apply BitVec.eq_of_toNat_eq
  simp only [BitVec.extractLsb'_toNat, Nat.shiftRight_eq_div_pow, toNat_bitLength]
  omega

theorem extract_bitLength_low (len : BitVec 64) : (bitLength len).extractLsb' 0 3 = 0#3 := by
  apply BitVec.eq_of_toNat_eq
  simp only [BitVec.extractLsb'_toNat, Nat.shiftRight_eq_div_pow, toNat_bitLength, BitVec.toNat_ofNat]
  omega

/-- LEN counts modulo 2^64, and so does the length field. -/
theorem bitLength_ofNat (n : Nat) : bitLength (BitVec.ofNat 64 n) = BitVec.ofNat 64 (8 * n) := by
  apply BitVec.eq_of_toNat_eq
  simp only [toNat_bitLength, BitVec.toNat_ofNat]
  omega

/-- The last block of PAD is 56 bytes and the length field. -/
theorem last_block_of_pad {fill : BitVec 6} {len : BitVec 64} {pend p : List Byte} (hpend : pend.length = fill.toNat)
    (hp : (pad fill len pend).getLast? = some p) :
    ∃ body : List Byte, body.length = 56 ∧ p = body ++ le64 (bitLength len) := by
  rcases Nat.lt_or_ge fill.toNat 56 with hfill | hfill
  · rw [pad_of_le len pend (by omega)] at hp
    refine ⟨_, ?_, (Option.some.inj hp).symm⟩
    simp
    omega
  · rw [pad_of_ge len pend hfill] at hp
    exact ⟨_, List.length_replicate, (Option.some.inj hp).symm⟩

/-- The first block of PAD begins with the pending bytes and the marker. -/
theorem first_block_of_pad {fill : BitVec 6} {len : BitVec 64} {pend p : List Byte}
    (hp : (pad fill len pend).head? = some p) : ∃ rest, p = pend ++ 0x80#8 :: rest := by
  rcases Nat.lt_or_ge fill.toNat 56 with hfill | hfill
  · rw [pad_of_le len pend (by omega), List.append_assoc] at hp
    exact ⟨_, (Option.some.inj hp).symm⟩
  · rw [pad_of_ge len pend hfill] at hp
    exact ⟨_, (Option.some.inj hp).symm⟩

/-- Settles O34: the bits of the length field, and where it and the marker stand. -/
theorem lengthFieldIsEightTimesLen : Obligations.LengthFieldIsEightTimesLen := by
  intro fill len pend hpend
  refine ⟨toNat_bitLength len, extract_bitLength_high len, extract_bitLength_low len, fun m p hp => ?_,
    fun p hp => ?_⟩
  · obtain ⟨body, hbody, rfl⟩ := last_block_of_pad hpend hp
    rw [List.getElem?_append_right (by omega), hbody, Nat.add_sub_cancel_left, getElem?_le64]
  · obtain ⟨rest, rfl⟩ := first_block_of_pad hp
    rw [← hpend, List.getElem?_append_right (Nat.le_refl _), Nat.sub_self, List.getElem?_cons_zero]

/-! ### The padded stream (R97) -/

/-- The blocks of PAD in a row: one formula for the number of zero bytes, with or without a spill. -/
theorem flatten_pad (fill : BitVec 6) (len : BitVec 64) (pend : List Byte) :
    (pad fill len pend).flatten =
      pend ++ 0x80#8 :: (List.replicate ((119 - fill.toNat) % 64) 0x00#8 ++ le64 (bitLength len)) := by
  have hlt := fill.isLt
  rcases Nat.lt_or_ge fill.toNat 56 with hfill | hfill
  · have hzeros : (119 - fill.toNat) % 64 = 55 - fill.toNat := by omega
    rw [pad_of_le len pend (by omega), hzeros]
    simp
  · have hzeros : (119 - fill.toNat) % 64 = 63 - fill.toNat + 56 := by omega
    rw [pad_of_ge len pend hfill, hzeros, List.replicate_add]
    simp

/-- The full blocks of a message and the blocks of PAD in a row. -/
theorem padded_stream_eq (m : List Byte) :
    (fullBlocks m).flatten ++
        (pad (BitVec.ofNat 6 m.length) (BitVec.ofNat 64 m.length) (leftover m)).flatten =
      m ++ 0x80#8 :: (List.replicate ((119 - m.length % 64) % 64) 0x00#8 ++ le64 (BitVec.ofNat 64 (8 * m.length))) := by
  rw [flatten_pad, ← List.append_assoc, fullBlocks_flatten_append_leftover, bitLength_ofNat, BitVec.toNat_ofNat]

/-- Settles O35: the stream is the message with its padding, and its length follows from the number of zero bytes. -/
theorem paddedStreamShape : Obligations.PaddedStreamShape := by
  intro m _ blocks stream
  have hstream : stream = _ := padded_stream_eq m
  have hlength : stream.length = m.length + 9 + (119 - m.length % 64) % 64 := by
    rw [hstream]
    simp
    omega
  have hfill : (BitVec.ofNat 6 m.length).toNat = m.length % 64 := BitVec.toNat_ofNat ..
  refine ⟨fun hle => ⟨by omega, ?_⟩, fun hge => ⟨by omega, ?_⟩, _, hstream⟩
  · exact congrArg List.length (pad_of_le _ _ (hfill.trans_le hle))
  · exact congrArg List.length (pad_of_ge _ _ (hfill.ge.trans' hge))

/-! ### Padding in place (R95) -/

/-- A write reads back behind the bytes that stood before it. -/
theorem State.memRead_memWrite (s : State) {k n : Nat} {v : List Byte} (hend : k + v.length = n) (hn : n ≤ 64) :
    (s.memWrite k v).memRead 0 n = s.memRead 0 k ++ v := by
  refine List.ext_getElem? fun i => ?_
  rcases Nat.lt_or_ge i n with hi | hi
  · rw [State.getElem?_memRead _ _ _ _ hi, State.bufByte, State.memWrite_buf, State.memWrite_draws,
      bufIndex_of_lt (by omega), Memory.read?_writeBytes _ _ _ _ (by omega)]
    rcases Nat.lt_or_ge i k with hik | hik
    · rw [if_neg (by omega), List.getElem?_append_left (by simpa using hik), State.getElem?_memRead _ _ _ _ hik,
        State.bufByte, bufIndex_of_lt (by omega)]
    · rw [if_pos (by omega), List.getElem?_append_right (by simpa using hik), State.length_memRead,
        Nat.zero_add, List.getElem?_eq_getElem (by omega), Option.getD_some]
  · rw [List.getElem?_eq_none (by simpa using hi), List.getElem?_eq_none (by simp; omega)]

/-- COMPRESS of given bytes does not look at BUF. -/
theorem State.compressBlock_memWrite (s : State) (k : Nat) (v block : List Byte) :
    (s.memWrite k v).compressBlock block = (s.compressBlock block).memWrite k v := by
  simp only [State.compressBlock, State.memWrite]

/-- Padding in place differs from the loop over PAD's blocks in BUF alone: each COMPRESS reads the bytes just
written, and the first reads the pending bytes before them. -/
theorem State.padInPlace_eq_compressBlocks (s : State) :
    ∃ buf, s.padInPlace = { s.compressBlocks (pad s.fill s.len s.pending) with buf := buf } := by
  have hlt := s.fill.isLt
  rcases Nat.lt_or_ge s.fill.toNat 56 with hfill | hfill
  · simp only [State.padInPlace, if_pos (Nat.le_of_lt_succ hfill)]
    rw [State.memRead_memWrite _ (by simp) (by omega), State.memRead_memWrite _ (by simp; omega) (by omega),
      State.memRead_memWrite _ (by simp) (by omega), pad_of_le _ _ (by omega)]
    simp only [State.compressBlock_memWrite, State.compressBlocks_cons, State.compressBlocks_nil, State.pending,
      List.append_assoc, List.singleton_append]
    exact ⟨_, rfl⟩
  · simp only [State.padInPlace, if_neg (Nat.not_le_of_lt hfill)]
    rw [State.memRead_memWrite _ (k := 56) (by simp) (by omega), State.memRead_memWrite _ (k := 0) (by simp) (by omega),
      State.memRead_memWrite _ (by simp; omega) (by omega), State.memRead_memWrite _ (by simp) (by omega),
      pad_of_ge _ _ hfill]
    simp only [State.compressBlock_memWrite, State.compressBlocks_cons, State.compressBlocks_nil, State.pending,
      List.append_assoc, List.singleton_append]
    exact ⟨_, rfl⟩

/-- Settles O36: the two forms differ in BUF alone. -/
theorem padInPlaceEqualsPadBlocks : Obligations.PadInPlaceEqualsPadBlocks := by
  intro s
  obtain ⟨buf, hpad⟩ := s.padInPlace_eq_compressBlocks
  rw [hpad]
  exact ⟨rfl, rfl⟩

end Sys2Proof.Machine

/-! PROOFS. The self-checks of the constant ROM (R119): the selection tables are generated by two permutations, the
rotation amounts by one table over stage and word; the counts and sums follow from these two facts. -/

namespace Sys2Proof.Machine

/-- The step in column `c` of row `g` of a table of the ROM (R114 to R117). -/
def stepAt (g : Fin 5) (c : Fin 16) : Fin 80 := ⟨16 * g.val + c.val, by omega⟩

/-- The permutation `rho` of R119 (b). -/
def rho (i : Fin 16) : Fin 16 := [7, 4, 13, 1, 10, 6, 15, 3, 12, 0, 9, 5, 2, 14, 11, 8].getD i.val 0

/-- The permutation `pi` of R119 (b). -/
def wordPi (i : Fin 16) : Fin 16 := 9 * i + 5

/-- The rotation amount of message word `w` in stage `g` (R119 (d)). -/
def rotationAmount (g : Fin 5) (w : Fin 16) : Nat :=
  List.getD
    ([[11, 14, 15, 12, 5, 8, 7, 9, 11, 13, 14, 15, 6, 7, 9, 8], [12, 13, 11, 15, 6, 9, 9, 7, 12, 15, 11, 13, 7, 8, 7, 7],
      [13, 15, 14, 11, 7, 7, 6, 8, 13, 14, 13, 12, 5, 5, 6, 9], [14, 11, 12, 14, 8, 6, 5, 5, 15, 12, 15, 14, 9, 9, 8, 6],
      [15, 12, 13, 13, 9, 5, 8, 6, 14, 11, 12, 11, 8, 6, 5, 5]].getD g.val []) w.val 0

/-! ### Rows and columns -/

@[simp] theorem stage_stepAt (g : Fin 5) (c : Fin 16) : stage (stepAt g c) = g :=
  Fin.ext (show (16 * g.val + c.val) / 16 = g.val by omega)

theorem sum_steps_eq_sum_rows (f : Fin 80 → Nat) : ∑ j, f j = ∑ g, ∑ c, f (stepAt g c) := by
  have hstep : ∀ p : Fin 5 × Fin 16, finProdFinEquiv p = stepAt p.1 p.2 := fun p => Fin.ext (Nat.add_comm ..)
  rw [← Fintype.sum_prod_type']
  exact ((finProdFinEquiv (m := 5) (n := 16)).sum_comp f).symm.trans
    (Finset.sum_congr rfl fun p _ => congrArg f (hstep p))

/-! ### The selection tables (R119 (a), (b)) -/

theorem rho_bijective : rho.Bijective := Finite.injective_iff_bijective.mp (by decide)

theorem wordPi_bijective : wordPi.Bijective := Finite.injective_iff_bijective.mp (by decide)

theorem rl_stepAt : ∀ (g : Fin 5) (c : Fin 16), rl (stepAt g c) = rho^[g.val] c := by decide

theorem rr_stepAt : ∀ (g : Fin 5) (c : Fin 16), rr (stepAt g c) = rho^[g.val] (wordPi c) := by decide

theorem rl_row_bijective (g : Fin 5) : (fun c => rl (stepAt g c)).Bijective := by
  simpa only [rl_stepAt] using rho_bijective.iterate g.val

theorem rr_row_bijective (g : Fin 5) : (fun c => rr (stepAt g c)).Bijective := by
  simpa only [rr_stepAt, Function.comp_def] using (rho_bijective.iterate g.val).comp wordPi_bijective

/-- A row sum of any quantity of the selected words is its sum over the sixteen words. -/
theorem sum_rl_row (f : Fin 16 → Nat) (g : Fin 5) : ∑ c, f (rl (stepAt g c)) = ∑ w, f w :=
  (rl_row_bijective g).sum_comp f

theorem sum_rr_row (f : Fin 16 → Nat) (g : Fin 5) : ∑ c, f (rr (stepAt g c)) = ∑ w, f w :=
  (rr_row_bijective g).sum_comp f

/-! ### The rotation amounts (R119 (c), (d)) -/

theorem sl_eq_rotationAmount : ∀ j, sl j = rotationAmount (stage j) (rl j) := by decide

theorem sr_eq_rotationAmount : ∀ j, sr j = rotationAmount (stage j) (rr j) := by decide

theorem sl_stepAt (g : Fin 5) (c : Fin 16) : sl (stepAt g c) = rotationAmount g (rl (stepAt g c)) := by
  rw [sl_eq_rotationAmount, stage_stepAt]

theorem sr_stepAt (g : Fin 5) (c : Fin 16) : sr (stepAt g c) = rotationAmount g (rr (stepAt g c)) := by
  rw [sr_eq_rotationAmount, stage_stepAt]

theorem rotationAmount_bounds : ∀ g w, 5 ≤ rotationAmount g w ∧ rotationAmount g w ≤ 15 := by decide

theorem sum_rotationAmount : ∀ g, ∑ w, rotationAmount g w = [164, 162, 158, 163, 153].getD g.val 0 := by decide

theorem sum_sl_row (g : Fin 5) : ∑ c, sl (stepAt g c) = [164, 162, 158, 163, 153].getD g.val 0 := by
  simp only [sl_stepAt, sum_rl_row, sum_rotationAmount]

theorem sum_sr_row (g : Fin 5) : ∑ c, sr (stepAt g c) = [164, 162, 158, 163, 153].getD g.val 0 := by
  simp only [sr_stepAt, sum_rr_row, sum_rotationAmount]

/-! ### The stage constants (R119 (e)) -/

theorem kl_is_floor_of_sqrt : ∀ g : Fin 5, (kl g).toNat ^ 2 ≤ 2 ^ 60 * [0, 2, 3, 5, 7].getD g.val 0 ∧
    2 ^ 60 * [0, 2, 3, 5, 7].getD g.val 0 < ((kl g).toNat + 1) ^ 2 := by decide

theorem kr_is_floor_of_cbrt : ∀ g : Fin 5, (kr g).toNat ^ 3 ≤ 2 ^ 90 * [2, 3, 5, 7, 0].getD g.val 0 ∧
    2 ^ 90 * [2, 3, 5, 7, 0].getD g.val 0 < ((kr g).toNat + 1) ^ 3 := by decide

/-- Settles O44: the rows are the permutations `rho^g` and `rho^g ∘ pi`, and an amount is a function of stage and word;
the sums over rows and tables follow by reordering. -/
theorem constantRomSelfChecks : Obligations.ConstantRomSelfChecks := by
  unfold Obligations.ConstantRomSelfChecks
  simp only [← Fin.sum_univ_def]
  have hwords : ∑ w : Fin 16, w.val = 120 := by decide
  refine ⟨fun g => (rl_row_bijective g).existsUnique, fun g => (rr_row_bijective g).existsUnique,
    fun g => ⟨(sum_rl_row _ g).trans hwords, (sum_rr_row _ g).trans hwords⟩, ?_, ?_,
    fun g c => ⟨rl_stepAt g c, rr_stepAt g c⟩, fun j => ?_, fun g => ⟨sum_sl_row g, sum_sr_row g⟩, ?_, ?_,
    fun g c c' h => ?_, fun g c => (sl_stepAt g c).symm, kl_is_floor_of_sqrt, kr_is_floor_of_cbrt⟩
  · simp only [sum_steps_eq_sum_rows, sum_rl_row Fin.val, hwords]
    rfl
  · simp only [sum_steps_eq_sum_rows, sum_rr_row Fin.val, hwords]
    rfl
  · obtain ⟨hl, hl'⟩ := rotationAmount_bounds (stage j) (rl j)
    obtain ⟨hr, hr'⟩ := rotationAmount_bounds (stage j) (rr j)
    rw [sl_eq_rotationAmount, sr_eq_rotationAmount]
    exact ⟨hl, hl', hr, hr'⟩
  · simp only [sum_steps_eq_sum_rows, sum_sl_row]
    rfl
  · simp only [sum_steps_eq_sum_rows, sum_sr_row]
    rfl
  · exact (sl_stepAt g c).trans ((congrArg (rotationAmount g) h).trans (sr_stepAt g c').symm)

end Sys2Proof.Machine

/-! PROOFS. The boolean functions act bit by bit (R131), and the operands of a step depend on its stage (R138). -/

namespace Sys2Proof.Machine

/-- What `F(k, x, y, z)` makes of the bits at one position (R131). -/
def boolBit (k : Fin 5) (x y z : Bool) : Bool :=
  match k with
  | 0 => x ^^ y ^^ z
  | 1 => (x && y) || (!x && z)
  | 2 => (x || !y) ^^ z
  | 3 => (x && z) || (y && !z)
  | 4 => x ^^ (y || !z)

theorem getLsbD_boolF (k : Fin 5) (x y z : Word) {i : Nat} (hi : i < 32) :
    (boolF k x y z).getLsbD i = boolBit k (x.getLsbD i) (y.getLsbD i) (z.getLsbD i) := by
  match k with
  | 0 | 1 | 2 | 3 | 4 => simp [boolF, boolBit, hi]

/-- The rule's truth table of function `k`; row `4x + 2y + z` is the output for the bits x, y, z. -/
def truthTable (k : Fin 5) : List Bool :=
  match k with
  | 0 => [false, true, true, false, true, false, false, true]
  | 1 => [false, true, false, true, false, false, true, true]
  | 2 => [true, false, false, true, true, false, true, false]
  | 3 => [false, false, true, false, false, true, true, true]
  | 4 => [true, false, true, true, false, true, false, false]

theorem truthTable_row : ∀ (k : Fin 5) (x y z : Bool),
    (truthTable k)[4 * x.toNat + 2 * y.toNat + z.toNat]? = some (boolBit k x y z) := by decide

theorem truthTable_getLsbD_boolF (k : Fin 5) (x y z : Word) (i : Fin 32) :
    (truthTable k)[4 * (x.getLsbD i.val).toNat + 2 * (y.getLsbD i.val).toNat + (z.getLsbD i.val).toNat]? =
      some ((boolF k x y z).getLsbD i.val) := by
  rw [truthTable_row, getLsbD_boolF k x y z i.isLt]

@[simp] theorem fselL_val : ∀ g : Fin 5, (fselL g).val = g.val := by decide

@[simp] theorem fselR_val : ∀ g : Fin 5, (fselR g).val = 4 - g.val := by decide

/-- Settles O37: the five tables are the functions' values on one bit position. -/
theorem booleanFunctionTruthTables : Obligations.BooleanFunctionTruthTables :=
  ⟨fun g => ⟨fselL_val g, fselR_val g⟩, fun x y z i =>
    ⟨truthTable_getLsbD_boolF 0 x y z i, truthTable_getLsbD_boolF 1 x y z i, truthTable_getLsbD_boolF 2 x y z i,
      truthTable_getLsbD_boolF 3 x y z i, truthTable_getLsbD_boolF 4 x y z i⟩⟩

/-- Settles O40: `g` is the stage of step `j`, by which both rows of R138 select. -/
theorem lineOperandsFollowTheStage : Obligations.LineOperandsFollowTheStage := by
  intro x j g hg
  have hstage : stage j = g := Fin.ext hg.symm
  simp [leftOperands, rightOperands, hstage]

end Sys2Proof.Machine

/-! PROOFS. The word mixer's step and COMBINE, word by word (R135, R137, R142). -/

namespace Sys2Proof.Machine

/-- The temporary T, with both sums formed in the reverse order. -/
theorem mixT_eq_reversed (w : Working) (f : Fin 5) (x k : Word) (s : Nat) :
    mixT w f x k s = w.e + rol (k + (x + (boolF f w.b w.c w.d + w.a))) s := by
  have hsum : w.a + boolF f w.b w.c w.d + x + k = k + (x + (boolF f w.b w.c w.d + w.a)) := by ac_rfl
  rw [mixT, hsum, BitVec.add_comm]

/-- Settles O39: the formula is the definition of a step, and only T changes its form in the other order. -/
theorem stepFormulaAndDataPathAgree : Obligations.StepFormulaAndDataPathAgree := fun a b c d e x k f s =>
  ⟨rfl, congrArg (rotateRoles ⟨a, b, c, d, e⟩) (mixT_eq_reversed ⟨a, b, c, d, e⟩ f x k s)⟩

/-- Word `i` of COMBINE's result in the index form of R142; `Fin 5` adds modulo 5. -/
theorem combine_get (h : Chain) (l r : Working) (i : Fin 5) :
    (combine h l r).get i = h.get (i + 1) + l.get (i + 2) + r.get (i + 3) := by
  match i with
  | 0 | 1 | 2 | 3 | 4 => rfl

/-- Settles O43: the word-by-word form is the definition of COMBINE. -/
theorem combinePermutesTheWords : Obligations.CombinePermutesTheWords := fun h l r =>
  ⟨rfl, combine_get h l r⟩

end Sys2Proof.Machine

/-! PROOFS. The scheduler stops at J = 79 (R141), and COMPRESS on the machine is the pure function (R143, R146). -/

namespace Sys2Proof.Machine

/-- The pass of the last step pair ends the loop, whatever passes are left (R141). -/
theorem Hidden.loop_succ_of_last (x : Fin 16 → Word) (n : Nat) {d : Hidden} (hlast : d.j.val = 79) :
    d.loop x (n + 1) = d.stepPair x := by
  rw [Hidden.loop]
  exact if_pos hlast

/-- Every earlier pass goes on with the next step number (R141). -/
theorem Hidden.loop_succ_of_not_last (x : Fin 16 → Word) (n : Nat) {d : Hidden} (hlast : d.j.val ≠ 79) :
    d.loop x (n + 1) = Hidden.loop x n { d.stepPair x with j := d.j + 1 } := by
  rw [Hidden.loop]
  exact if_neg hlast

/-- From any step number, with passes enough to finish: the loop ends at J = 79, and more passes change nothing. -/
theorem Hidden.loop_stops (x : Fin 16 → Word) (n : Nat) (d : Hidden) (hn : 80 ≤ d.j.val + n) :
    (d.loop x n).j.val = 79 ∧ ∀ m, d.loop x (n + m) = d.loop x n := by
  induction n generalizing d with
  | zero => omega
  | succ n ih =>
    by_cases hlast : d.j.val = 79
    · rw [Hidden.loop_succ_of_last x n hlast]
      exact ⟨hlast, fun m => by rw [Nat.add_right_comm, Hidden.loop_succ_of_last x _ hlast]⟩
    · have hnext : (d.j + 1).val = d.j.val + 1 := by
        rw [Fin.val_add_one_of_lt']
        omega
      obtain ⟨hj, hmore⟩ := ih { d.stepPair x with j := d.j + 1 } (by rw [hnext]; omega)
      rw [Hidden.loop_succ_of_not_last x n hlast]
      exact ⟨hj, fun m => by rw [Nat.add_right_comm, Hidden.loop_succ_of_not_last x _ hlast, hmore]⟩

/-- Settles O41: the two lines by induction on the passes (`Hidden.loop_lines`), the end of the loop likewise. -/
theorem schedulerComputesTheTwoLines : Obligations.SchedulerComputesTheTwoLines := by
  intro h x d
  obtain ⟨hleft, hright⟩ := d.schedule_lines h x
  obtain ⟨hj, hmore⟩ := Hidden.loop_stops x Config.steps (d.seed h) (Nat.le_add_left _ _)
  rw [← Hidden.schedule_eq] at hj hmore
  exact ⟨hleft, hright, hj, hmore⟩

/-- Settles O42: the frame of COMPRESS, with the values of the two registers it writes. -/
theorem machineCompressIsThePureFunction : Obligations.MachineCompressIsThePureFunction := fun s block => by
  rw [State.compressBlock_frame, State.compressBlock_h_eq_compress, State.compressBlock_hidden]

end Sys2Proof.Machine

/-! PROOFS. The worked example of COMPRESS (R147), evaluated part by part. -/

namespace Sys2Proof.Machine

/-- The one padded block of the empty message (R147). -/
def emptyMessageBlock : List Byte := 0x80#8 :: List.replicate 63 0x00#8

/-- The message words of R147: `X[0] = 0x80`, all others 0. -/
theorem wordView_emptyMessageBlock :
    wordView emptyMessageBlock = fun i => if i = 0 then 0x00000080#32 else 0#32 :=
  funext (by decide)

/-- Both lines after step 0. -/
theorem first_steps_emptyMessageBlock :
    let x := wordView emptyMessageBlock
    let seed : Working := ⟨iv.h0, iv.h1, iv.h2, iv.h3, iv.h4⟩
    (leftOperands x 0).run seed = ⟨0xC3D2E1F0#32, 0x1606F864#32, 0xEFCDAB89#32, 0xEB73FA62#32, 0x10325476#32⟩ ∧
      (rightOperands x 0).run seed =
        ⟨0xC3D2E1F0#32, 0xDDD63FB8#32, 0xEFCDAB89#32, 0xEB73FA62#32, 0x10325476#32⟩ := by
  rw [wordView_emptyMessageBlock]
  decide

/-- The left line after step 79. -/
theorem lineL_emptyMessageBlock : lineL iv (wordView emptyMessageBlock) =
    ⟨0x594637A7#32, 0x215D97B3#32, 0xEBA027EB#32, 0xB99CDC7A#32, 0xEC4DCDFF#32⟩ := by
  rw [wordView_emptyMessageBlock]
  decide +kernel

/-- The right line after step 79. -/
theorem lineR_emptyMessageBlock : lineR iv (wordView emptyMessageBlock) =
    ⟨0x9A8805EC#32, 0x2BDCCEE7#32, 0xA8EA6AFE#32, 0xCA173E28#32, 0x02A5304D#32⟩ := by
  rw [wordView_emptyMessageBlock]
  decide +kernel

theorem compress_emptyMessageBlock : compress iv emptyMessageBlock =
    ⟨0xA585119C#32, 0x54FCE9C5#32, 0x97082861#32, 0x48F5E87E#32, 0x318D25B2#32⟩ := by
  rw [compress, lineL_emptyMessageBlock, lineR_emptyMessageBlock]
  decide

/-- The digest of the empty message. -/
theorem serialize_compress_emptyMessageBlock : serialize (compress iv emptyMessageBlock) =
    [0x9c#8, 0x11#8, 0x85#8, 0xa5#8, 0xc5#8, 0xe9#8, 0xfc#8, 0x54#8, 0x61#8, 0x28#8,
      0x08#8, 0x97#8, 0x7e#8, 0xe8#8, 0xf5#8, 0x48#8, 0xb2#8, 0x25#8, 0x8d#8, 0x31#8] := by
  rw [compress_emptyMessageBlock]
  decide

/-- Settles O45: the two lines of the block are evaluated, and what COMBINE and SERIALIZE make of them. -/
theorem compressOfTheEmptyMessageBlock : Obligations.CompressOfTheEmptyMessageBlock := by
  obtain ⟨hleft, hright⟩ := first_steps_emptyMessageBlock
  exact ⟨congrFun wordView_emptyMessageBlock 0, fun i hi => (congrFun wordView_emptyMessageBlock i).trans (if_neg hi),
    hleft, hright, lineL_emptyMessageBlock, lineR_emptyMessageBlock, compress_emptyMessageBlock,
    serialize_compress_emptyMessageBlock⟩

end Sys2Proof.Machine

/-! PROOFS. The four commands one at a time: what each answers and what it leaves alone (R160 to R164), and the bytes
of SERIALIZE (R166). -/

namespace Sys2Proof.Machine

/-! ### CTXNEW (R160) -/

/-- In phase Empty no byte of BUF is defined: FILL is 0, and just the bytes below FILL are. -/
theorem State.Inv.buf_of_empty {s : State} (hs : s.Inv) (hp : s.phase = .empty) : s.buf = [] := by
  obtain ⟨-, hempty, -, hkeys, -⟩ := hs
  obtain ⟨-, hfill, -⟩ := hempty hp
  have hnone := hkeys (by simp [hp])
  rw [hfill] at hnone
  exact List.map_eq_nil_iff.1 hnone

/-- An Empty context that meets the invariant is fresh already. -/
theorem State.Inv.freshContext_of_empty {s : State} (hs : s.Inv) (hp : s.phase = .empty) : s.freshContext = s := by
  have hbuf := hs.buf_of_empty hp
  obtain ⟨-, hempty, -⟩ := hs
  obtain ⟨hlen, hfill, hh⟩ := hempty hp
  cases s
  simp_all [State.freshContext, State.forgetBuffer]

/-- Settles O13: CTXNEW leaves a fresh context, and responds. -/
theorem ctxnewStartsAFreshContext : Obligations.CtxnewStartsAFreshContext := by
  refine ⟨fun s => ?_, fun s hs hp => ?_⟩
  · have hfresh := s.ctxnew_isFresh .ok 0#160
    exact ⟨_, exec_ctxnew s, hfresh.h, hfresh.len, hfresh.fill, hfresh.phase, by simp, by simp, by simp,
      by simp⟩
  · rw [exec_ctxnew, hs.freshContext_of_empty hp, State.respond]

/-! ### TOUCH (R161) -/

/-- Settles O14: the rule of TOUCH, with the response written out. -/
theorem touchOnlyMakesTheContextAccumulating : Obligations.TouchOnlyMakesTheContextAccumulating := by
  intro s hp
  rw [exec_touch_of_live hp, State.respond]

/-! ### ABSORB (R162, R163) -/

/-- Settles O15: FILL is not 63, so nothing is drained. -/
theorem absorbStoresOneByte : Obligations.AbsorbStoresOneByte := by
  intro s b hp hf
  obtain ⟨hresp, hin, hlen, -⟩ := (s.takeByte b).advanceFill_frame
  refine ⟨_, exec_absorb_of_live b hp, ?_, fun k hk => ?_, ?_, ?_, ?_, ?_, ?_, ?_, ?_⟩
  · simp [State.absorb_read?, hf]
  · simp [State.absorb_read?, hf, hk]
  · simp [hlen]
  · simp [State.advanceFill_fill, fill_succ_toNat hf]
  · simp
  · simp [hresp]
  · simp [State.absorb_h, hf]
  · simp [State.advanceFill_of_room (s := s.takeByte b) (by simpa using hf)]
  · simp [hin]

/-- Settles O16: FILL is 63, so the byte completes the block, which is drained. -/
theorem absorbOfTheLastByteDrains : Obligations.AbsorbOfTheLastByteDrains := by
  intro s b hp hf
  obtain ⟨hresp, hin, hlen, -⟩ := (s.takeByte b).advanceFill_frame
  refine ⟨_, exec_absorb_of_live b hp, ?_, ?_, ?_, ?_, ?_, fun k => ?_, ?_⟩
  · simp [State.absorb_h, hf]
  · simp [State.advanceFill_fill, hf]
  · simp [hlen]
  · simp
  · simp [hresp]
  · simp [State.absorb_read?, hf]
  · simp [hin]

/-! ### FINAL and SERIALIZE (R164 to R166) -/

/-- Settles O17: the rule of FINAL. -/
theorem finalAnswersTheSerializedChain : Obligations.FinalAnswersTheSerializedChain := by
  intro s hp
  obtain ⟨t, hexec, hphase, -, hin, hresp⟩ := exec_final_of_live hp
  exact ⟨t, hexec, hphase, hin, hresp⟩

/-- Settles O48: byte `4i + m` is byte `m` of the word that stands at bytes `4i` to `4i + 3`. -/
theorem serializeIsLittleEndian : Obligations.SerializeIsLittleEndian := by
  refine fun h => ⟨rfl, fun i m => ?_⟩
  rw [← getElem?_le32, ← serialize_word, List.getElem?_take_of_lt m.isLt, List.getElem?_drop]

end Sys2Proof.Machine

/-! PROOFS. The table of the context state machine (R171), cell by cell. -/

namespace Sys2Proof.Machine

/-! ### The cells -/

theorem stateMachineCell_ctxnew (p : Phase) : stateMachineCell p .ctxnew = (some .ok, .empty) := by
  cases p <;> rfl

theorem stateMachineCell_illegalWord (p : Phase) : stateMachineCell p .illegalWord = (some .illegal, p) := by
  cases p <;> rfl

theorem stateMachineCell_reset (p : Phase) : stateMachineCell p .reset = (none, .empty) := by
  cases p <;> rfl

/-- The column of a command's word. -/
def Column.ofInstr : Instr → Column
  | .ctxnew => .ctxnew
  | .touch => .touch
  | .absorb _ => .absorb
  | .final => .final

theorem columnOf_of_decode {w : Cmd} {i : Instr} (hdec : decode w = .command i) :
    columnOf (.command w) = Column.ofInstr i := by
  cases i <;> simp only [columnOf, hdec, Column.ofInstr]

theorem columnOf_of_illegal {w : Cmd} {why : IllegalWord} (hdec : decode w = .illegal why) :
    columnOf (.command w) = .illegalWord := by
  simp only [columnOf, hdec]

/-- In the row Finalized every command but CTXNEW answers MISUSE and stays. -/
theorem stateMachineCell_of_finalized {i : Instr} (hi : i ≠ .ctxnew) :
    stateMachineCell .finalized (Column.ofInstr i) = (some .misuse, .finalized) := by
  cases i with
  | ctxnew => exact absurd rfl hi
  | touch | absorb | final => rfl

/-- The phase that a command other than CTXNEW leaves behind in the two other rows. -/
theorem stateMachineCell_of_live {p : Phase} {i : Instr} (hp : p ≠ .finalized) (hi : i ≠ .ctxnew) :
    stateMachineCell p (Column.ofInstr i) = (some .ok, if i = .final then .finalized else .accumulating) := by
  cases p with
  | finalized => exact absurd rfl hp
  | empty | accumulating =>
    cases i with
    | ctxnew => exact absurd rfl hi
    | touch | absorb | final => rfl

/-! ### What an event in a column does -/

/-- From `s` to `t` happens what R171's table says of column `c`, and a FINAL that answers OK carries the digest of
R164. -/
def FollowsTable (c : Column) (s t : State) : Prop :=
  t.phase = (stateMachineCell s.phase c).2 ∧
  t.responses.map Response.status = s.responses.map Response.status ++ (stateMachineCell s.phase c).1.toList ∧
  (c = .final → s.phase ≠ .finalized → t.responses = s.responses ++
    [⟨.ok, digestField (serialize (compressAll s.h (pad s.fill s.len s.pending)))⟩])

/-- A response with the cell's status is all the table asks, but for FINAL's digest. -/
theorem followsTable_of_response {c : Column} {s t : State} {r : Response}
    (hcell : stateMachineCell s.phase c = (some r.status, t.phase)) (hresp : t.responses = s.responses ++ [r])
    (hfinal : c = .final → s.phase ≠ .finalized →
      r = ⟨.ok, digestField (serialize (compressAll s.h (pad s.fill s.len s.pending)))⟩) : FollowsTable c s t := by
  refine ⟨by rw [hcell], by simp [hcell, hresp], fun hc hp => by rw [hresp, hfinal hc hp]⟩

theorem assertReset_followsTable (s : State) : FollowsTable .reset s s.assertReset :=
  ⟨by rw [stateMachineCell_reset, State.assertReset_phase],
    by rw [stateMachineCell_reset, State.assertReset_responses, Option.toList, List.append_nil], nofun⟩

theorem exec_followsTable (i : Instr) (s : State) : ∃ t, exec i s = .next t ∧ FollowsTable (Column.ofInstr i) s t := by
  by_cases hi : i = .ctxnew
  · subst hi
    refine ⟨_, exec_ctxnew s, followsTable_of_response (r := ⟨.ok, 0#160⟩) ?_ (by simp) nofun⟩
    rw [Column.ofInstr, stateMachineCell_ctxnew, (State.ctxnew_isFresh ..).phase]
  by_cases hp : s.phase = .finalized
  · refine ⟨_, exec_of_finalized hi hp, followsTable_of_response (r := ⟨.misuse, 0#160⟩) ?_ (by simp) ?_⟩
    · rw [State.raise_phase, hp, stateMachineCell_of_finalized hi]
    · exact fun _ hlive => absurd hp hlive
  have hcell := stateMachineCell_of_live hp hi
  cases i with
  | ctxnew => exact absurd rfl hi
  | touch =>
    refine ⟨_, exec_touch_of_live hp, followsTable_of_response (r := ⟨.ok, 0#160⟩) ?_ (by simp) nofun⟩
    rw [hcell, State.respond_phase]
    rfl
  | absorb b =>
    refine ⟨_, exec_absorb_of_live b hp, followsTable_of_response (r := ⟨.ok, 0#160⟩) ?_ ?_ nofun⟩
    · rw [hcell, State.respond_phase]
      rfl
    · simp [State.advanceFill_frame]
  | final =>
    obtain ⟨t, hexec, hphase, -, -, hresp⟩ := exec_final_of_live hp
    refine ⟨t, hexec, followsTable_of_response ?_ hresp fun _ _ => rfl⟩
    rw [hcell, hphase]
    rfl

theorem runEvent_followsTable (e : HostEvent) (s : State) :
    ∃ t, runEvent e s = .next t ∧ FollowsTable (columnOf e) s t := by
  cases e with
  | command w =>
    cases hdec : decode w with
    | command i =>
      rw [runEvent, runWord_of_decode s hdec, columnOf_of_decode hdec]
      exact exec_followsTable i s
    | illegal why =>
      have hrun : runEvent (.command w) s = .next (s.raise .illegal) := by simp only [runEvent, runWord, hdec]
      rw [columnOf_of_illegal hdec]
      refine ⟨_, hrun, followsTable_of_response (r := ⟨.illegal, 0#160⟩) ?_ (by simp) nofun⟩
      rw [stateMachineCell_illegalWord, State.raise_phase]
  | reset => exact ⟨_, rfl, assertReset_followsTable s⟩
  | commandCutByReset w => exact ⟨_, rfl, assertReset_followsTable s⟩

/-- Settles O19: `FollowsTable` is the statement's three clauses. -/
theorem contextStateMachineTable : Obligations.ContextStateMachineTable := fun s e => runEvent_followsTable e s

end Sys2Proof.Machine

/-! PROOFS. FINAL on a context that holds a message: the blocks of PAD complete the blocks of the padded message
(R34(d), R164, R168). -/

namespace Sys2Proof.Machine

/-! ### Cutting at block boundaries -/

theorem fullBlocks_block_append {p : List Byte} (hp : p.length = 64) (r : List Byte) :
    fullBlocks (p ++ r) = p :: fullBlocks r := by
  have hcount : (p ++ r).length / 64 = r.length / 64 + 1 := by simp; omega
  have hnext (i : Nat) : (p ++ r).drop (64 * (i + 1)) = r.drop (64 * i) := by
    rw [Nat.mul_succ, Nat.add_comm, ← List.drop_drop, ← hp, List.drop_left]
  rw [fullBlocks, hcount, List.range_succ_eq_map, List.map_cons, List.map_map, Nat.mul_zero, List.drop_zero, ← hp,
    List.take_left, hp]
  exact congrArg _ (List.map_congr_left fun i _ => congrArg (List.take 64) (hnext i))

theorem fullBlocks_blocks_append {blocks : List (List Byte)} (hblocks : ∀ p ∈ blocks, p.length = 64) (r : List Byte) :
    fullBlocks (blocks.flatten ++ r) = blocks ++ fullBlocks r := by
  induction blocks with
  | nil => rfl
  | cons p blocks ih =>
    obtain ⟨hp, hrest⟩ := List.forall_mem_cons.1 hblocks
    rw [List.flatten_cons, List.append_assoc, fullBlocks_block_append hp, ih hrest, List.cons_append]

theorem length_of_mem_fullBlocks {m p : List Byte} (hp : p ∈ fullBlocks m) : p.length = 64 := by
  obtain ⟨i, hi, rfl⟩ := List.mem_map.1 hp
  rw [List.mem_range] at hi
  simp
  omega

/-- A message that goes on: its full blocks, then those that begin with its leftover bytes. -/
theorem fullBlocks_append (m r : List Byte) : fullBlocks (m ++ r) = fullBlocks m ++ fullBlocks (leftover m ++ r) := by
  conv_lhs => rw [← fullBlocks_flatten_append_leftover m, List.append_assoc]
  exact fullBlocks_blocks_append (fun _ => length_of_mem_fullBlocks) _

/-- A message that goes on leaves over what its leftover bytes leave over when they go on. -/
theorem leftover_append (m r : List Byte) : leftover (m ++ r) = leftover (leftover m ++ r) := by
  have hwhole := fullBlocks_flatten_append_leftover (m ++ r)
  have hm := fullBlocks_flatten_append_leftover m
  have hrest := fullBlocks_flatten_append_leftover (leftover m ++ r)
  rw [fullBlocks_append, List.flatten_append, List.append_assoc] at hwhole
  apply List.append_cancel_left (as := (fullBlocks (leftover m ++ r)).flatten)
  apply List.append_cancel_left (as := (fullBlocks m).flatten)
  rw [hwhole, hrest, ← List.append_assoc, hm]

theorem compressAll_append (h : Chain) (ps qs : List (List Byte)) :
    compressAll h (ps ++ qs) = compressAll (compressAll h ps) qs := List.foldl_append

/-! ### The padded message -/

/-- PAD in a row is the leftover bytes and R168's padding, when FILL and LEN are those of the message. -/
theorem flatten_pad_eq_messagePadding {fill : BitVec 6} {m : List Byte} (hfill : fill.toNat = m.length % 64) :
    (pad fill (BitVec.ofNat 64 m.length) (leftover m)).flatten = leftover m ++ messagePadding m.length := by
  have hzeros : (119 - fill.toNat) % 64 = ((55 - (m.length : Int)) % 64).toNat := by omega
  rw [flatten_pad, bitLength_ofNat, hzeros, messagePadding]

/-- The blocks of the padded message are the full blocks of the message and those of PAD. -/
theorem fullBlocks_padded {fill : BitVec 6} {m : List Byte} (hfill : fill.toNat = m.length % 64) :
    fullBlocks (m ++ messagePadding m.length) =
      fullBlocks m ++ pad fill (BitVec.ofNat 64 m.length) (leftover m) := by
  have hpad := fullBlocks_blocks_append (blocks := pad fill (BitVec.ofNat 64 m.length) (leftover m))
    (fun _ => length_of_mem_pad (by rw [length_leftover, hfill])) []
  rw [List.append_nil] at hpad
  rw [fullBlocks_append, ← flatten_pad_eq_messagePadding hfill, hpad]
  simp [fullBlocks]

/-- FINAL answers the digest of `m` where LEN counts `m`, H has folded in its full blocks, and the rest is pending. -/
theorem exec_final_digest {s : State} {m : List Byte} (hp : s.phase ≠ .finalized)
    (hlen : s.len = BitVec.ofNat 64 m.length) (hpending : s.pending = leftover m)
    (hh : s.h = compressAll iv (fullBlocks m)) :
    ∃ t, exec .final s = .next t ∧ t.inputs = s.inputs ∧
      t.responses = s.responses ++ [⟨.ok, digestField (ripemd160 m)⟩] := by
  obtain ⟨t, hexec, -, -, hin, hresp⟩ := exec_final_of_live hp
  have hfill : s.fill.toNat = m.length % 64 := by rw [← State.length_pending, hpending, length_leftover]
  rw [hlen, hpending, hh, ← compressAll_append, ← fullBlocks_padded hfill] at hresp
  exact ⟨t, hexec, hin, hresp⟩

/-- Settles O23: a context that holds `m` has it in LEN, H and the pending bytes. -/
theorem finalAnswersTheDigestOfTheHeldMessage : Obligations.FinalAnswersTheDigestOfTheHeldMessage := by
  intro s m hs
  have hpending := hs.pending_eq
  obtain ⟨hp, hlen, -, -, hh⟩ := hs
  obtain ⟨t, hexec, -, hresp⟩ := exec_final_digest hp (BitVec.eq_of_toNat_eq (by simpa using hlen)) hpending hh
  exact ⟨t, hexec, hresp⟩

end Sys2Proof.Machine

/-! PROOFS. The pseudo-commands UPDATE and DIGEST (R167 to R169): one induction over a list of TOUCH and ABSORB
commands, which the commands of one UPDATE are, and those of many. -/

namespace Sys2Proof.Machine

/-! ### The commands of an UPDATE -/

/-- The commands that UPDATE sends (R82). -/
def IsUpdateCommand (i : Instr) : Prop := i = .touch ∨ ∃ b, i = .absorb b

theorem IsUpdateCommand.ne_ctxnew {i : Instr} (hi : IsUpdateCommand i) : i ≠ .ctxnew := by
  rcases hi with rfl | ⟨b, rfl⟩ <;> simp

/-- The bytes that a command adds to the message. -/
def bytesOf : Instr → List Byte
  | .absorb b => [b]
  | .ctxnew | .touch | .final => []

theorem updateCommands_ne_nil (bs : List Byte) : updateCommands bs ≠ [] := by
  cases bs <;> simp [updateCommands]

theorem isUpdateCommand_of_mem {bs : List Byte} {i : Instr} (hi : i ∈ updateCommands bs) : IsUpdateCommand i := by
  cases bs with
  | nil => exact .inl (List.mem_singleton.1 hi)
  | cons b bs =>
    obtain ⟨a, -, rfl⟩ := List.mem_map.1 hi
    exact .inr ⟨a, rfl⟩

theorem flatMap_bytesOf_updateCommands (bs : List Byte) : (updateCommands bs).flatMap bytesOf = bs := by
  cases bs with
  | nil => rfl
  | cons b bs =>
    rw [updateCommands, List.flatMap_map]
    exact List.flatMap_singleton' (b :: bs)

/-- The commands of many UPDATEs carry the joined chunks. -/
theorem flatMap_bytesOf_chunks (chunks : List (List Byte)) :
    (chunks.flatMap updateCommands).flatMap bytesOf = chunks.flatten := by
  induction chunks with
  | nil => rfl
  | cons bs chunks ih =>
    rw [List.flatMap_cons, List.flatMap_append, flatMap_bytesOf_updateCommands, ih, List.flatten_cons]

/-! ### What a list of such commands does -/

/-- `t` is what the commands `cmds`, all OK, make of `s`, in all that counts. FILL is the number of pending bytes. -/
structure State.UpdatesTo (s : State) (cmds : List Instr) (t : State) : Prop where
  inputs : t.inputs = s.inputs
  responses : t.responses = s.responses ++ List.replicate cmds.length ⟨.ok, 0#160⟩
  phase : t.phase = if cmds = [] then s.phase else .accumulating
  len : t.len = s.len + BitVec.ofNat 64 (cmds.flatMap bytesOf).length
  h : t.h = compressAll s.h (fullBlocks (s.pending ++ cmds.flatMap bytesOf))
  pending : t.pending = leftover (s.pending ++ cmds.flatMap bytesOf)

theorem State.length_pending_lt (s : State) : s.pending.length < 64 := by
  rw [State.length_pending]
  exact s.fill.isLt

theorem State.updatesTo_nil (s : State) : s.UpdatesTo [] s where
  inputs := rfl
  responses := by simp
  phase := rfl
  len := by simp
  h := by simp [fullBlocks_of_short s.length_pending_lt, compressAll]
  pending := by simp [leftover_of_short s.length_pending_lt]

theorem State.updatesTo_touch (s : State) :
    s.UpdatesTo [.touch] ({ s with phase := .accumulating }.respond .ok 0#160) where
  inputs := by simp
  responses := by simp
  phase := by simp
  len := by simp [bytesOf]
  h := by simp [bytesOf, fullBlocks_of_short s.length_pending_lt, compressAll]
  pending := by simp [bytesOf, leftover_of_short s.length_pending_lt]

/-- What the pending bytes and one more leave: a block that is full exactly when FILL was 63. -/
theorem State.pending_append_byte (s : State) (b : Byte) :
    fullBlocks (s.pending ++ [b]) = (if s.fill = 63#6 then [s.pending ++ [b]] else []) ∧
      leftover (s.pending ++ [b]) = if s.fill = 63#6 then [] else s.pending ++ [b] := by
  have hlt := s.fill.isLt
  have hlength : (s.pending ++ [b]).length = s.fill.toNat + 1 := by simp
  split
  · next hf =>
    rw [fill_eq_last_iff] at hf
    have hblock := fullBlocks_block_append (p := s.pending ++ [b]) (by omega) []
    rw [List.append_nil] at hblock
    exact ⟨hblock, List.eq_nil_of_length_eq_zero (by rw [length_leftover]; omega)⟩
  · next hf =>
    rw [fill_eq_last_iff] at hf
    exact ⟨fullBlocks_of_short (by omega), leftover_of_short (by omega)⟩

theorem State.updatesTo_absorb (s : State) (b : Byte) :
    s.UpdatesTo [.absorb b] ({ (s.takeByte b).advanceFill with phase := .accumulating }.respond .ok 0#160) where
  inputs := by simp [State.advanceFill_frame]
  responses := by simp [State.advanceFill_frame]
  phase := by simp
  len := by simp [State.advanceFill_frame, bytesOf]
  h := by
    obtain ⟨hblocks, -⟩ := s.pending_append_byte b
    rw [State.respond_h, State.absorb_h, List.flatMap_singleton, bytesOf, hblocks]
    split <;> rfl
  pending := by
    obtain ⟨-, hleft⟩ := s.pending_append_byte b
    rw [State.respond_pending, State.pending_of_phase, State.absorb_pending, List.flatMap_singleton, bytesOf, hleft]

/-- One list of commands after another. -/
theorem State.UpdatesTo.trans {s t u : State} {cs ds : List Instr} (hst : s.UpdatesTo cs t) (htu : t.UpdatesTo ds u) :
    s.UpdatesTo (cs ++ ds) u where
  inputs := htu.inputs.trans hst.inputs
  responses := by simp [htu.responses, hst.responses]
  phase := by
    rw [htu.phase, hst.phase]
    cases ds with
    | nil => simp
    | cons d ds => simp
  len := by simp [htu.len, hst.len, BitVec.ofNat_add, BitVec.add_assoc]
  h := by
    rw [htu.h, hst.h, hst.pending, ← compressAll_append, ← fullBlocks_append, List.append_assoc, List.flatMap_append]
  pending := by rw [htu.pending, hst.pending, ← leftover_append, List.append_assoc, List.flatMap_append]

theorem State.UpdatesTo.live {s t : State} {cmds : List Instr} (h : s.UpdatesTo cmds t) (hp : s.phase ≠ .finalized) :
    t.phase ≠ .finalized := by
  rw [h.phase]
  split
  · exact hp
  · simp

theorem State.UpdatesTo.fill {s t : State} {cmds : List Instr} (h : s.UpdatesTo cmds t) :
    t.fill.toNat = (s.fill.toNat + (cmds.flatMap bytesOf).length) % 64 := by
  rw [← State.length_pending, h.pending, length_leftover, List.length_append, State.length_pending]

/-- One such command. -/
theorem exec_updatesTo {i : Instr} {s : State} (hi : IsUpdateCommand i) (hp : s.phase ≠ .finalized) :
    ∃ t, exec i s = .next t ∧ s.UpdatesTo [i] t := by
  rcases hi with rfl | ⟨b, rfl⟩
  · exact ⟨_, exec_touch_of_live hp, s.updatesTo_touch⟩
  · exact ⟨_, exec_absorb_of_live b hp, s.updatesTo_absorb b⟩

/-- A list of such commands, whatever the host sends after them. -/
theorem State.play_updates {cmds : List Instr} {s : State} (hcmds : ∀ i ∈ cmds, IsUpdateCommand i)
    (hp : s.phase ≠ .finalized) (es : List HostEvent) :
    ∃ t, s.play (asEvents cmds ++ es) = t.play es ∧ s.UpdatesTo cmds t := by
  induction cmds generalizing s with
  | nil => exact ⟨s, rfl, s.updatesTo_nil⟩
  | cons i cmds ih =>
    obtain ⟨hi, hrest⟩ := List.forall_mem_cons.1 hcmds
    obtain ⟨t, hexec, ht⟩ := exec_updatesTo hi hp
    obtain ⟨u, hplay, hu⟩ := ih hrest (ht.live hp)
    exact ⟨u, (State.play_cons _ (decode_encode i) hexec ht.inputs).trans hplay, ht.trans hu⟩

/-- On a finalized context every command but CTXNEW answers MISUSE, and nothing else happens. -/
theorem State.play_of_finalized {cmds : List Instr} {s : State} (hcmds : ∀ i ∈ cmds, i ≠ .ctxnew)
    (hp : s.phase = .finalized) :
    s.play (asEvents cmds) =
      .next { s with responses := s.responses ++ List.replicate cmds.length ⟨.misuse, 0#160⟩ } := by
  induction cmds generalizing s with
  | nil => simp [asEvents]
  | cons i cmds ih =>
    obtain ⟨hi, hrest⟩ := List.forall_mem_cons.1 hcmds
    have hplay := State.play_cons (asEvents cmds) (decode_encode i) (exec_of_finalized hi hp) (s.raise_inputs .misuse)
    rw [ih hrest ((s.raise_phase .misuse).trans hp)] at hplay
    refine hplay.trans ?_
    simp [State.raise, State.respond, List.replicate_succ]

/-- Settles O30: the commands of one UPDATE carry its bytes. -/
theorem updateAbsorbsItsBytes : Obligations.UpdateAbsorbsItsBytes := by
  refine ⟨fun s bs hp => ?_, fun s bs hp => ?_⟩
  · obtain ⟨t, hplay, ht⟩ := State.play_updates (fun _ => isUpdateCommand_of_mem (bs := bs)) hp []
    have hbytes := flatMap_bytesOf_updateCommands bs
    rw [List.append_nil, State.play_nil] at hplay
    refine ⟨t, hplay, ht.phase.trans (if_neg (updateCommands_ne_nil bs)), ?_, ?_, ?_, ?_, ht.responses, ht.inputs⟩
    · rw [ht.len, hbytes]
    · rw [ht.fill, hbytes]
    · rw [ht.h, hbytes]
    · rw [ht.pending, hbytes]
  · exact State.play_of_finalized (fun _ hi => (isUpdateCommand_of_mem hi).ne_ctxnew) hp

/-! ### A whole message (R168, R169) -/

theorem asEvents_append (cs ds : List Instr) : asEvents (cs ++ ds) = asEvents cs ++ asEvents ds := List.map_append

/-- In a fresh context, TOUCH and ABSORB commands and FINAL answer the digest of the bytes absorbed. -/
theorem State.IsFresh.play_updates_final {s : State} {cmds : List Instr} (hs : s.IsFresh)
    (hcmds : ∀ i ∈ cmds, IsUpdateCommand i) :
    ∃ t, s.play (asEvents (cmds ++ [.final])) = .next t ∧ t.inputs = s.inputs ∧
      t.responses = s.responses ++ List.replicate cmds.length ⟨.ok, 0#160⟩ ++
        [⟨.ok, digestField (ripemd160 (cmds.flatMap bytesOf))⟩] := by
  have hlive : s.phase ≠ .finalized := by simp [hs.phase]
  obtain ⟨u, hupdates, hu⟩ := State.play_updates hcmds hlive (asEvents [.final])
  have hlen := hu.len
  have hpending := hu.pending
  have hh := hu.h
  rw [hs.len, BitVec.zero_add] at hlen
  rw [State.pending_of_fill_zero hs.fill, List.nil_append] at hpending hh
  rw [hs.h] at hh
  obtain ⟨t, hexec, hin, hresp⟩ := exec_final_digest (hu.live hlive) hlen hpending hh
  have hfinal := State.play_cons [] (decode_encode .final) hexec hin
  rw [State.play_nil] at hfinal
  rw [asEvents_append]
  exact ⟨t, hupdates.trans hfinal, hin.trans hu.inputs, by rw [hresp, hu.responses]⟩

/-- CTXNEW makes the context fresh in every phase, with one more OK. -/
theorem State.play_message {cmds : List Instr} (s : State) (hcmds : ∀ i ∈ cmds, IsUpdateCommand i) :
    ∃ t, s.play (asEvents (.ctxnew :: (cmds ++ [.final]))) = .next t ∧ t.inputs = s.inputs ∧
      t.responses = s.responses ++ List.replicate (1 + cmds.length) ⟨.ok, 0#160⟩ ++
        [⟨.ok, digestField (ripemd160 (cmds.flatMap bytesOf))⟩] := by
  obtain ⟨t, hplay, hin, hresp⟩ := (s.ctxnew_isFresh .ok 0#160).play_updates_final hcmds
  have hnew := State.play_cons (asEvents (cmds ++ [.final])) (decode_encode .ctxnew) (exec_ctxnew s) (by simp)
  refine ⟨t, hnew.trans hplay, by simpa using hin, ?_⟩
  rw [hresp, List.replicate_add]
  simp

/-- Settles O31: the commands of DIGEST carry the message's bytes. -/
theorem digestAnswersTheDigestOfTheMessage : Obligations.DigestAnswersTheDigestOfTheMessage := by
  intro s m _
  obtain ⟨t, hplay, hin, hresp⟩ := s.play_message (fun _ => isUpdateCommand_of_mem (bs := m))
  rw [flatMap_bytesOf_updateCommands] at hresp
  exact ⟨t, hplay, hin, hresp⟩

/-- Settles O32: the commands of the chunks and those of the one message carry the same bytes. -/
theorem streamingEqualsOneShot : Obligations.StreamingEqualsOneShot := by
  intro s u chunks
  have hchunks : ∀ i ∈ chunks.flatMap updateCommands, IsUpdateCommand i := by
    intro i hi
    obtain ⟨bs, -, hbs⟩ := List.mem_flatMap.1 hi
    exact isUpdateCommand_of_mem hbs
  obtain ⟨t, hstream, -, ht⟩ := s.play_message hchunks
  obtain ⟨v, hdigest, -, hv⟩ := u.play_message (fun _ => isUpdateCommand_of_mem (bs := chunks.flatten))
  rw [flatMap_bytesOf_chunks] at ht
  rw [flatMap_bytesOf_updateCommands] at hv
  exact ⟨t, v, _, hstream, hdigest, by rw [ht, List.getLast?_concat], by rw [hv, List.getLast?_concat], rfl⟩

end Sys2Proof.Machine

/-! PROOFS. Error responses and what ends them: MISUSE on a finalized context, ILLEGAL for an illegal word, no other
failure, and the two ways out of phase Finalized (R190 to R195, R199, R203). -/

namespace Sys2Proof.Machine

/-! ### MISUSE (R190) -/

/-- In R171's table a command's cell holds MISUSE just in the row Finalized, outside CTXNEW's column. -/
theorem stateMachineCell_misuse {p : Phase} {i : Instr}
    (h : (stateMachineCell p (Column.ofInstr i)).1 = some .misuse) : i ≠ .ctxnew ∧ p = .finalized := by
  by_cases hi : i = .ctxnew
  · subst hi
    rw [Column.ofInstr, stateMachineCell_ctxnew] at h
    cases h
  by_cases hp : p = .finalized
  · exact ⟨hi, hp⟩
  · rw [stateMachineCell_of_live hp hi] at h
    cases h

/-- Settles O18: the rule of a finalized context one way, R171's table the other way. -/
theorem misuseExactlyOnAFinalizedContext : Obligations.MisuseExactlyOnAFinalizedContext := by
  refine ⟨fun s i hi hp => ?_, fun s t i d h hresp => ?_⟩
  · rw [exec_of_finalized hi hp, State.raise, State.respond]
  · obtain ⟨u, hexec, -, hstatus, -⟩ := exec_followsTable i s
    obtain rfl := Host.Outcome.next.inj (hexec.symm.trans h)
    rw [hresp, List.map_append, List.append_cancel_left_eq] at hstatus
    exact stateMachineCell_misuse (Option.toList_eq_singleton_iff.1 hstatus.symm)

/-! ### Out of phase Finalized (R199) -/

/-- The only command that takes a context out of phase Finalized is CTXNEW, and the context is Empty then. -/
theorem exec_leaves_finalized {i : Instr} {s t : State} (hp : s.phase = .finalized) (h : exec i s = .next t)
    (ht : t.phase ≠ .finalized) : i = .ctxnew ∧ t.phase = .empty := by
  by_cases hi : i = .ctxnew
  · subst hi
    obtain rfl := Host.Outcome.next.inj ((exec_ctxnew s).symm.trans h)
    exact ⟨rfl, (s.ctxnew_isFresh .ok 0#160).phase⟩
  · obtain rfl := Host.Outcome.next.inj ((exec_of_finalized hi hp).symm.trans h)
    exact absurd ((s.raise_phase .misuse).trans hp) ht

/-- The only word that does so is CTXNEW's. -/
theorem runWord_leaves_finalized {w : Cmd} {s t : State} (hp : s.phase = .finalized) (h : runWord w s = .next t)
    (ht : t.phase ≠ .finalized) : w = 0x0100#16 ∧ t.phase = .empty := by
  rcases runWord_cases w s with ⟨i, hdec, hrun⟩ | ⟨-, -, hrun⟩
  · obtain ⟨rfl, hempty⟩ := exec_leaves_finalized hp (hrun.symm.trans h) ht
    exact ⟨(encode_of_decode hdec).symm, hempty⟩
  · obtain rfl := Host.Outcome.next.inj (hrun.symm.trans h)
    exact absurd ((s.raise_phase .illegal).trans hp) ht

/-- Settles O27: of a word it is CTXNEW's, and the other events are resets. -/
theorem onlyCtxnewOrResetLeavesFinalized : Obligations.OnlyCtxnewOrResetLeavesFinalized := by
  intro s t e rest hq hp h ht
  rw [step_of_inputs hq] at h
  cases e with
  | command w =>
    obtain ⟨rfl, hempty⟩ := runWord_leaves_finalized (s := { s with inputs := rest }) hp h ht
    exact ⟨hempty, .inr (.inl rfl)⟩
  | reset =>
    obtain rfl := eq_assertReset_of_runEvent (by simp) h
    exact ⟨(State.assertReset_isFresh _).phase, .inl rfl⟩
  | commandCutByReset w =>
    obtain rfl := eq_assertReset_of_runEvent (by simp) h
    exact ⟨(State.assertReset_isFresh _).phase, .inr (.inr ⟨w, rfl⟩)⟩

/-! ### ILLEGAL, idling and no other failure (R191 to R195, R203) -/

/-- Settles O9: the rule of an illegal word asks nothing of the phase. -/
theorem illegalWordAnswersIllegalInEveryPhase : Obligations.IllegalWordAnswersIllegalInEveryPhase := by
  intro s w rest hq hw
  rw [step_of_inputs hq, runEvent, runWord_of_illegal _ hw, State.raise, State.respond]

/-- Settles O10: of the two cases of a step, the one with no event. -/
theorem idleEngineHoldsItsState : Obligations.IdleEngineHoldsItsState := by
  intro s hq
  rcases step_cases s with ⟨-, hstep⟩ | ⟨e, rest, hcons, -⟩
  · exact hstep
  · rw [hq] at hcons
    cases hcons

/-- Settles O11: an idle engine stays, and every event has a cell in R171's table. -/
theorem everyStepAnswersANextState : Obligations.EveryStepAnswersANextState := by
  intro s
  rcases step_cases s with ⟨-, hstep⟩ | ⟨e, rest, -, hstep⟩
  · exact ⟨s, hstep⟩
  · obtain ⟨t, hrun, -⟩ := runEvent_followsTable e { s with inputs := rest }
    exact ⟨t, hstep.trans hrun⟩

/-- Settles O20: ABSORB answers OK whatever LEN is, and the advance of FILL leaves the new LEN alone. -/
theorem lengthWrapIsNoError : Obligations.LengthWrapIsNoError := by
  intro s b hp
  obtain ⟨hresp, -, hlen, -⟩ := (s.takeByte b).advanceFill_frame
  refine ⟨_, exec_absorb_of_live b hp, ?_, by simp [hresp]⟩
  rw [State.respond_len, hlen, State.takeByte_len, BitVec.toNat_add, BitVec.toNat_ofNat, Nat.add_mod_mod]

end Sys2Proof.Machine

/-! PROOFS. The reset event, a command cut short by it, and what CTXNEW and reset leave behind (R210, R212, R215,
R219): each of them gives a fresh context, whatever the engine did before. -/

namespace Sys2Proof.Machine

/-! ### Reset (R210, R215) -/

/-- A step that takes a reset: the reset's effect on the state without that event. -/
theorem step_of_reset {s : State} {rest : List HostEvent} (hq : s.inputs = .reset :: rest) :
    step s = .next { s with inputs := rest }.assertReset := by
  rw [step_of_inputs hq, runEvent]

/-- Settles O3: the context is fresh, and the reset's frame gives the responses and the events left. -/
theorem resetEventStartsAnEmptyContextSilently : Obligations.ResetEventStartsAnEmptyContextSilently := by
  intro s rest hq
  obtain ⟨hphase, hlen, hfill, hh, hbuf⟩ := { s with inputs := rest }.assertReset_isFresh
  refine ⟨_, step_of_reset hq, hphase, hlen, hfill, hh, fun k => ?_, State.assertReset_responses _,
    State.assertReset_inputs _⟩
  rw [hbuf, Memory.read?_nil]

/-! ### A command cut short (R212) -/

/-- A command cut short takes the same step as a reset in its place, whatever its word. -/
theorem step_of_commandCutByReset {s : State} {w : Cmd} {rest : List HostEvent}
    (hq : s.inputs = .commandCutByReset w :: rest) : step s = step { s with inputs := .reset :: rest } := by
  rw [step_of_inputs hq, runEvent, step_of_reset rfl]

/-- Settles O4: the step is a reset's, so its outcome is the one of O3. -/
theorem commandCutByResetActsAsReset : Obligations.CommandCutByResetActsAsReset := by
  intro s w rest hq
  have hreset := step_of_commandCutByReset hq
  obtain ⟨t, hstep, hphase, hlen, hfill, hh, -, hresp, -⟩ :=
    resetEventStartsAnEmptyContextSilently { s with inputs := .reset :: rest } rest rfl
  exact ⟨hreset, t, hreset.trans hstep, hresp, hphase, hh, hlen, hfill⟩

/-! ### An abandoned context (R219) -/

/-- Settles O29: CTXNEW and reset each leave two fresh contexts, with the same events still waiting. -/
theorem anAbandonedContextLeavesNoTrace : Obligations.AnAbandonedContextLeavesNoTrace := by
  intro s t hin
  refine ⟨⟨_, _, exec_ctxnew s, exec_ctxnew t, ?_⟩, ⟨_, _, rfl, rfl, ?_⟩⟩
  · exact (s.ctxnew_isFresh ..).sameFuture (t.ctxnew_isFresh ..) (by simp [hin])
  · exact s.assertReset_isFresh.sameFuture t.assertReset_isFresh (by simp [hin])

end Sys2Proof.Machine
